-- ==== Sys2Proof/Config.lean ====
section
/-! DEFINITION. The constants of this hardware, each with the name and the value the spec gives it (00_scope.md R7, R8,
R9). None is a run-time register. The lengths and widths are reducible, since types are made of them; simp replaces them
by their values. The spec leaves no value open, so there is no free value here. -/

namespace Sys2Proof.Config

/-! ## What the document fixes (R7, R8) -/

/-- `PERIOD`: seconds per time step, the divisor of the counter. -/
def period : Nat := 30

/-- `NDIGITS`: decimal digits of the code. -/
@[simp] abbrev ndigits : Nat := 6

/-- `MODULUS`: the reducer's modulus. -/
def modulus : Nat := 1000000

/-- The hash functions that can stand under the HMAC of this hardware: one (R8). -/
inductive HashFunction where
  | sha1
deriving DecidableEq, Repr

/-- `HASH`: the hash under the HMAC. -/
def hash : HashFunction := .sha1

/-- `DIGEST_LEN`: bytes of HMAC-SHA1 output. -/
@[simp] abbrev digestLen : Nat := 20

/-- `MSG_LEN`: bytes of the serialised counter. -/
@[simp] abbrev msgLen : Nat := 8

/-- `CTR_W`: bits of the counter. -/
@[simp] abbrev ctrW : Nat := 64

/-- `SYM_W`: bits per Base32 character. -/
@[simp] abbrev symW : Nat := 5

/-- `OFFSET_MASK`: `offset = digest[19] & 0x0F`. -/
def offsetMask : BitVec 8 := 0x0F#8

/-- `SIGN_MASK`: `digest[offset] & 0x7F`. -/
def signMask : BitVec 8 := 0x7F#8

/-! ## What the spec chose (R9) -/

/-- `CMD_W`: bits of a command word. -/
@[simp] abbrev cmdW : Nat := 72

/-- `ACC_W`: bits of the decoder's shift register. -/
@[simp] abbrev accW : Nat := 12

/-- `BLOCK_LEN`: bytes of a SHA-1 block and of the key block register. -/
@[simp] abbrev blockLen : Nat := 64

/-- `KLEN_W`: bits of the decoded-key byte counter. -/
@[simp] abbrev klenW : Nat := 64

/-- `KLEN_LIMIT`: key byte counts at or above this are refused by the model. -/
def klenLimit : Nat := 2 ^ 61

/-- `STRIP`: the character codes the decoder skips (40_base32_decoder.md R103). -/
def strip : List (BitVec 8) := [0x09#8, 0x0A#8, 0x0B#8, 0x0C#8, 0x0D#8, 0x20#8, 0x2D#8]

/-- `IPAD` (42_hmac_sha1.md R153). -/
def ipad : BitVec 8 := 0x36#8

/-- `OPAD` (42_hmac_sha1.md R153). -/
def opad : BitVec 8 := 0x5C#8

end Sys2Proof.Config
end

