-- ==== Sys2Proof/Word.lean ====
section
/-! DEFINITION. The widths of the TOTP core: bytes, engine words, symbols, the counter, the command word, and the fixed
byte arrays (00_scope.md R7, R9, R10, R11; 10_state.md R21; 30_encoding.md R81). -/

namespace Sys2Proof

/-- 8 bits: a character code, a key byte, a digest byte, an opcode. -/
abbrev Byte := BitVec 8

/-- 32 bits: a word of the SHA-1 engine. -/
abbrev Word32 := BitVec 32

/-- 64 bits: the operand half of a command word (R81). -/
abbrev Word64 := BitVec 64

/-- The 5-bit value of a Base32 character (R7 `SYM_W`). -/
abbrev Symbol := BitVec Config.symW

/-- The time counter (R7 `CTR_W`). -/
abbrev Counter := BitVec Config.ctrW

/-- A command word: the opcode in bits 71:64 over the operand in bits 63:0 (R9 `CMD_W`, R81). -/
abbrev CmdWord := BitVec Config.cmdW

/-- A 64-byte block: the key block `KBLK`, and what the SHA-1 engine compresses (R9 `BLOCK_LEN`). -/
abbrev Block := Vector Byte Config.blockLen

/-- The 20 bytes of an HMAC-SHA1 or SHA-1 output (R7 `DIGEST_LEN`). -/
abbrev Digest := Vector Byte Config.digestLen

/-- The SHA-1 chaining value, five words (10_state.md R29). -/
abbrev Chain := Vector Word32 5

/-- The serialised counter, 8 bytes (R7 `MSG_LEN`). -/
abbrev Msg := Vector Byte Config.msgLen

/-- The six characters of a code (R7 `NDIGITS`). -/
abbrev Digits := Vector Byte Config.ndigits

end Sys2Proof
end

