-- ==== Sys2Proof/Machine/Sha1.lean ====
section
/-! DEFINITION. The SHA-1 engine, a pure function of a chaining value and a block, and the hash over it
(42_hmac_sha1.md R141 to R147; 20_memory.md R65). -/

namespace Sys2Proof.Machine

/-- The big-endian word of four bytes, most significant first (00_scope.md R11 `word_be`). -/
def wordBe (b0 b1 b2 b3 : Byte) : Word32 := b0 ++ b1 ++ b2 ++ b3

/-- The four bytes of a word, most significant first (R11 `be32`). -/
def be32 (w : Word32) : List Byte :=
  [w.extractLsb' 24 8, w.extractLsb' 16 8, w.extractLsb' 8 8, w.extractLsb' 0 8]

/-- The byte `c[63 - 8*i : 56 - 8*i]` of a 64-bit value (41_counter_serializer.md R131 `ser64`). -/
def ser64 (c : Word64) (i : Nat) : Byte := (c >>> (8 * (7 - i))).setWidth 8

/-- The eight bytes of a 64-bit value, most significant first (R11, R131 `be64`). -/
def be64 (c : Word64) : Msg := Vector.ofFn fun i : Fin Config.msgLen => ser64 c i

/-- Rotation to the left, `0 < n < 32` (00_scope.md R12). -/
def rotl32 (x : Word32) (n : Nat) : Word32 := (x <<< n) ||| (x >>> (32 - n))

/-- The initial chaining value (R141). -/
def sha1Iv : Chain := #v[0x67452301#32, 0xEFCDAB89#32, 0x98BADCFE#32, 0x10325476#32, 0xC3D2E1F0#32]

/-- `H = (0, 0, 0, 0, 0)` (10_state.md R29). -/
def zeroChain : Chain := Vector.replicate 5 0#32

/-- The round constant `K(t)` (R141). -/
def sha1K (t : Nat) : Word32 :=
  if t ≤ 19 then 0x5A827999#32
  else if t ≤ 39 then 0x6ED9EBA1#32
  else if t ≤ 59 then 0x8F1BBCDC#32
  else 0xCA62C1D6#32

/-- The round function `f(t, b, c, d)`: choose, parity, majority, parity (R142). -/
def sha1F (t : Nat) (b c d : Word32) : Word32 :=
  if t ≤ 19 then (b &&& c) ||| (~~~b &&& d)
  else if t ≤ 39 then b ^^^ c ^^^ d
  else if t ≤ 59 then (b &&& c) ||| (b &&& d) ||| (c &&& d)
  else b ^^^ c ^^^ d

/-- The working registers `a` to `e`, local to a compression (R144, R148). -/
structure Working where
  a : Word32
  b : Word32
  c : Word32
  d : Word32
  e : Word32
deriving DecidableEq, Repr

/-- The first sixteen words of the schedule: the block read big-endian (R143; 20_memory.md R65). -/
def sha1FirstWords (b : Block) : List Word32 :=
  List.ofFn fun j : Fin 16 =>
    wordBe (b[4 * j.val]'(by simp; omega)) (b[4 * j.val + 1]'(by simp; omega)) (b[4 * j.val + 2]'(by simp; omega))
      (b[4 * j.val + 3]'(by simp; omega))

/-- Adds `n` words to a schedule held newest first: `W[t]` from `W[t-3]`, `W[t-8]`, `W[t-14]`, `W[t-16]` (R143). -/
def sha1Extend : Nat → List Word32 → List Word32
  | 0, ws => ws
  | n + 1, ws =>
    sha1Extend n (rotl32 (ws.getD 2 0#32 ^^^ ws.getD 7 0#32 ^^^ ws.getD 13 0#32 ^^^ ws.getD 15 0#32) 1 :: ws)

/-- The message schedule `W[0..79]` (R143). -/
def sha1Schedule (b : Block) : List Word32 := (sha1Extend 64 (sha1FirstWords b).reverse).reverse

/-- One round (R144). -/
def sha1Round (t : Nat) (w : Word32) (r : Working) : Working :=
  { a := rotl32 r.a 5 + sha1F t r.b r.c r.d + r.e + sha1K t + w
    b := r.a
    c := rotl32 r.b 30
    d := r.c
    e := r.d }

/-- The rounds from number `t` on, one for each word that is left (R145). -/
def sha1Rounds : Nat → List Word32 → Working → Working
  | _, [], r => r
  | t, w :: ws, r => sha1Rounds (t + 1) ws (sha1Round t w r)

/-- The working registers a compression starts from (R145). -/
def workingOf (h : Chain) : Working := { a := h[0], b := h[1], c := h[2], d := h[3], e := h[4] }

/-- The compression function (R145). Irreducible, as `blockOf` and `chainDigest` are, so that no unifier
runs the engine unasked. -/
@[irreducible] def sha1Compress (h : Chain) (b : Block) : Chain :=
  let r := sha1Rounds 0 (sha1Schedule b) (workingOf h)
  #v[h[0] + r.a, h[1] + r.b, h[2] + r.c, h[3] + r.d, h[4] + r.e]

/-- The padding of a message of `len` bytes whose uncompressed part has `r` bytes: 0x80, the fewest zero bytes that
complete a block, the length in bits, big-endian (R146). -/
def sha1Pad (r len : Nat) : List Byte :=
  0x80#8 :: (List.replicate ((119 - r % 64) % 64) 0x00#8 ++ (be64 (BitVec.ofNat 64 (8 * len))).toList)

/-- The first 64 bytes of a byte string as a block (00_scope.md R11 `A[0..63]`). -/
@[irreducible] def blockOf (bytes : List Byte) : Block := Vector.ofFn fun i : Fin Config.blockLen => bytes.getD i 0x00#8

/-- Compresses the first `n` blocks of a byte string, in order (R147). -/
def sha1Blocks : Nat → Chain → List Byte → Chain
  | 0, h, _ => h
  | n + 1, h, bytes => sha1Blocks n (sha1Compress h (blockOf bytes)) (bytes.drop 64)

/-- The chaining value as 20 bytes, each word big-endian (20_memory.md R65). -/
def chainBytes (h : Chain) : List Byte := be32 h[0] ++ be32 h[1] ++ be32 h[2] ++ be32 h[3] ++ be32 h[4]

/-- A chaining value as a digest (20_memory.md R65). -/
@[irreducible] def chainDigest (h : Chain) : Digest := Vector.ofFn fun i : Fin Config.digestLen => (chainBytes h).getD i 0x00#8

/-- The hash of a byte string (R147). -/
def sha1 (m : List Byte) : List Byte :=
  let p := m ++ sha1Pad (m.length % 64) m.length
  chainBytes (sha1Blocks (p.length / 64) sha1Iv p)

/-! ## The hash by its name (00_scope.md R7 `HASH`) -/

/-- The initial chaining value of a hash. -/
def hashIv : Config.HashFunction → Chain
  | .sha1 => sha1Iv

/-- The compression function of a hash. -/
def hashCompress : Config.HashFunction → Chain → Block → Chain
  | .sha1 => sha1Compress

/-- A hash of a byte string. -/
def hashBytes : Config.HashFunction → List Byte → List Byte
  | .sha1 => sha1

end Sys2Proof.Machine
end

