-- ==== Sys2Proof/Syntax.lean ====
section
/-! DEFINITION. The commands of the TOTP core, one constructor per row of spec/opcode_table.json
(30_encoding.md R82, R84). -/

namespace Sys2Proof

/-- The four PEEK spaces (20_memory.md R61). -/
inductive PeekSpace where
  | kblk
  | msg
  | digest
  | digits
deriving DecidableEq, Repr

/-- A command. Operands are taken from the word as they stand (30_encoding.md R83). -/
inductive Instr where
  /-- `NOP`, opcode 0x00 (44_host_commands.md R190). -/
  | nop
  /-- `CLR`, opcode 0x01 (44_host_commands.md R191). -/
  | clr
  /-- `KINIT`, opcode 0x10 (40_base32_decoder.md R104). -/
  | kinit
  /-- `KCHAR ch`, opcode 0x11 (40_base32_decoder.md R105). -/
  | kchar (ch : Byte)
  /-- `KEND`, opcode 0x12 (40_base32_decoder.md R112). -/
  | kend
  /-- `TLOAD imm64`, opcode 0x20: the time in whole seconds (41_counter_serializer.md R132). -/
  | tload (imm64 : Word64)
  /-- `CLOAD imm64`, opcode 0x21: the counter (41_counter_serializer.md R133). -/
  | cload (imm64 : Word64)
  /-- `MAC`, opcode 0x30 (42_hmac_sha1.md R152). -/
  | mac
  /-- `TRUNC`, opcode 0x31 (43_truncator.md R171). -/
  | trunc
  /-- `GEN`, opcode 0x32 (43_truncator.md R177). -/
  | gen
  /-- `PEEK s, i`, opcode 0x40 (44_host_commands.md R192). -/
  | peek (s : PeekSpace) (i : Byte)
deriving DecidableEq, Repr

end Sys2Proof
end

