-- ==== Sys2Proof/WellFormed.lean ====
section
/-! DEFINITION. Which commands have a word: every operand is admitted but a `PEEK` index at or beyond the size of
its space (30_encoding.md R86, R87; 20_memory.md R61). -/

namespace Sys2Proof

/-- The size in bytes of a PEEK space (20_memory.md R61). -/
def PeekSpace.size : PeekSpace → Nat
  | .kblk => Config.blockLen
  | .msg => Config.msgLen
  | .digest => Config.digestLen
  | .digits => Config.ndigits

/-- The one check on a command's operands. -/
def Instr.wellFormed : Instr → Bool
  | .nop | .clr | .kinit | .kend | .mac | .trunc | .gen => true
  | .kchar _ => true
  | .tload _ | .cload _ => true
  | .peek s i => decide (i.toNat < s.size)

/-- A command with a word of its own (30_encoding.md R87). -/
abbrev Instr.WellFormed (i : Instr) : Prop := i.wellFormed = true

end Sys2Proof
end

