-- ==== Sys2Proof/Decode.lean ====
section
/-! DEFINITION. The decoder of command words, total on all 72-bit words and rejecting by name, and its inverse the
encoder (30_encoding.md R81 to R87). -/

namespace Sys2Proof

/-- Why a word is illegal (30_encoding.md R85, R86). The block records none of this: every illegal word does the
same, `ILL <- 1` (60_exceptions.md R204). -/
inductive DecodeError where
  /-- The opcode byte is one of the 245 that no command has. -/
  | unassignedOpcode
  /-- A bit that the format marks 0 is 1. -/
  | reservedBits
  /-- `PEEK` of a space 4 to 15. -/
  | noSuchSpace
  /-- `PEEK` of an index at or beyond the size of its space. -/
  | indexOutOfRange
deriving DecidableEq, Repr

/-- The eleven operations an opcode byte can name. -/
inductive Opcode where
  | nop | clr | kinit | kchar | kend | tload | cload | mac | trunc | gen | peek
deriving DecidableEq, Repr

/-- The opcode map (30_encoding.md R84, decision D3). -/
def opcodeByte : Opcode → Byte
  | .nop => 0x00#8
  | .clr => 0x01#8
  | .kinit => 0x10#8
  | .kchar => 0x11#8
  | .kend => 0x12#8
  | .tload => 0x20#8
  | .cload => 0x21#8
  | .mac => 0x30#8
  | .trunc => 0x31#8
  | .gen => 0x32#8
  | .peek => 0x40#8

/-- All operations, in the table's order. -/
def allOpcodes : List Opcode :=
  [.nop, .clr, .kinit, .kchar, .kend, .tload, .cload, .mac, .trunc, .gen, .peek]

/-- The operation an opcode byte names; decoding uses the whole byte (R84). -/
def opcodeOf (b : Byte) : Option Opcode := allOpcodes.find? fun op => opcodeByte op == b

/-- `CMD[71:64]` (R81). -/
def cmdOp (w : CmdWord) : Byte := w.extractLsb' 64 8

/-- `CMD[63:0]` (R81). -/
def cmdData (w : CmdWord) : Word64 := w.extractLsb' 0 64

/-- The word made of an opcode byte and an operand (R81). -/
def mkWord (op : Byte) (data : Word64) : CmdWord := op ++ data

/-- The number of a PEEK space (20_memory.md R61). -/
def spaceNumber : PeekSpace → BitVec 4
  | .kblk => 0#4
  | .msg => 1#4
  | .digest => 2#4
  | .digits => 3#4

/-- The space a number names; spaces 4 to 15 do not exist (20_memory.md R61). -/
def spaceOf (n : BitVec 4) : Option PeekSpace :=
  [PeekSpace.kblk, .msg, .digest, .digits].find? fun s => spaceNumber s == n

/-- Format N: bits 63:0 must be zero (R82, R85). -/
def decodeN (i : Instr) (d : Word64) : Except DecodeError Instr :=
  if d = 0#64 then .ok i else .error .reservedBits

/-- Format C: bits 63:8 must be zero, bits 7:0 are `ch` (R82, R85). -/
def decodeC (d : Word64) : Except DecodeError Instr :=
  if d.extractLsb' 8 56 = 0#56 then .ok (.kchar (d.extractLsb' 0 8)) else .error .reservedBits

/-- Format P: bits 63:12 must be zero, bits 11:8 are `s`, bits 7:0 are `i`, in range (R82, R85, R86). -/
def decodeP (d : Word64) : Except DecodeError Instr :=
  if d.extractLsb' 12 52 = 0#52 then
    match spaceOf (d.extractLsb' 8 4) with
    | none => .error .noSuchSpace
    | some s =>
      if (d.extractLsb' 0 8).toNat < s.size then .ok (.peek s (d.extractLsb' 0 8))
      else .error .indexOutOfRange
  else .error .reservedBits

/-- The operand of each operation, by its format; format Q has no reserved bit (R82, R85). -/
def decodeOperand (op : Opcode) (d : Word64) : Except DecodeError Instr :=
  match op with
  | .nop => decodeN .nop d
  | .clr => decodeN .clr d
  | .kinit => decodeN .kinit d
  | .kchar => decodeC d
  | .kend => decodeN .kend d
  | .tload => .ok (.tload d)
  | .cload => .ok (.cload d)
  | .mac => decodeN .mac d
  | .trunc => decodeN .trunc d
  | .gen => decodeN .gen d
  | .peek => decodeP d

/-- The decoder (R87): every word is one command or illegal. -/
def decode (w : CmdWord) : Except DecodeError Instr :=
  match opcodeOf (cmdOp w) with
  | none => .error .unassignedOpcode
  | some op => decodeOperand op (cmdData w)

/-- The operation of a command. -/
def opcodeOfInstr : Instr → Opcode
  | .nop => .nop
  | .clr => .clr
  | .kinit => .kinit
  | .kchar _ => .kchar
  | .kend => .kend
  | .tload _ => .tload
  | .cload _ => .cload
  | .mac => .mac
  | .trunc => .trunc
  | .gen => .gen
  | .peek _ _ => .peek

/-- The operand bits of a command (R82). -/
def operandOf : Instr → Word64
  | .nop | .clr | .kinit | .kend | .mac | .trunc | .gen => 0#64
  | .kchar ch => 0#56 ++ ch
  | .tload imm64 | .cload imm64 => imm64
  | .peek s i => 0#52 ++ (spaceNumber s ++ i)

/-- The encoder, the decoder's inverse on well-formed commands (R87). -/
def encode (i : Instr) : CmdWord := mkWord (opcodeByte (opcodeOfInstr i)) (operandOf i)

/-- The table's `mask` of an operation: the bits its rows fix (R84). -/
def opcodeMask : Opcode → CmdWord
  | .nop | .clr | .kinit | .kend | .mac | .trunc | .gen => 0xFFFFFFFFFFFFFFFFFF#72
  | .kchar => 0xFFFFFFFFFFFFFFFF00#72
  | .tload | .cload => 0xFF0000000000000000#72
  | .peek => 0xFFFFFFFFFFFFFFF000#72

/-- The table's `match` of an operation (R84). -/
def opcodeMatch : Opcode → CmdWord
  | .nop => 0x000000000000000000#72
  | .clr => 0x010000000000000000#72
  | .kinit => 0x100000000000000000#72
  | .kchar => 0x110000000000000000#72
  | .kend => 0x120000000000000000#72
  | .tload => 0x200000000000000000#72
  | .cload => 0x210000000000000000#72
  | .mac => 0x300000000000000000#72
  | .trunc => 0x310000000000000000#72
  | .gen => 0x320000000000000000#72
  | .peek => 0x400000000000000000#72

/-- The instruction the decoder reads from a word whose bits, numbered as spec/opcode_table.json numbers them, are
`w`. A command is ONE 72-bit word, so the table's numbering is the word's own (R10, R81). -/
def decodeTableWord (nbits w : Nat) : Option Instr :=
  match decode (BitVec.ofNat Config.cmdW (w % 2 ^ nbits)) with
  | .ok i => some i
  | .error _ => none

end Sys2Proof
end

