-- ==== Sys2Proof/Machine/State.lean ====
section
/-! DEFINITION. The state of the TOTP core: every register of 10_state.md R21 and the host's side of the command
port, as plain data; why a step can stop; the machine right after reset (10_state.md R50). -/

namespace Sys2Proof.Machine

/-- The eight flags of the `STATUS` register (10_state.md R38). No command takes a value for `STATUS` and no bit of
it is reserved, so the flags are held by name; the 8-bit word the host reads is `statusWord` (log 10). -/
structure Status where
  /-- bit 0, key valid -/
  kv : Bool
  /-- bit 1, counter valid -/
  cv : Bool
  /-- bit 2, digest valid -/
  dv : Bool
  /-- bit 3, code valid -/
  ov : Bool
  /-- bit 4, key ingest active -/
  ka : Bool
  /-- bit 5, InvalidSecretFormat -/
  isf : Bool
  /-- bit 6, sequence error -/
  sqe : Bool
  /-- bit 7, illegal command -/
  ill : Bool
deriving DecidableEq, Repr

/-- What the host can do to the block between two commands (30_encoding.md R80; 93_implementation_defined.md U2). -/
inductive HostMove where
  /-- A word is presented and accepted: `cmd_valid = 1` and `cmd_ready = 1` (R80). -/
  | command (w : CmdWord)
  /-- `rst` is asserted and released (70_reset_and_hazards.md R220; log 3). -/
  | reset
deriving DecidableEq, Repr

/-- The machine. The first sixteen fields are the block's registers, all of them (10_state.md R21); the last two are
the host's moves still to come and its position (10_state.md R46; logs 1 and 2). -/
structure State where
  /-- `ACC`, the decoder's shift register (R22). -/
  acc : BitVec Config.accW
  /-- `NB`, the live bits of `ACC` (R23). -/
  nb : BitVec 4
  /-- `KNE`, an alphabet character was accepted since `KINIT` (R24). -/
  kne : Bool
  /-- `KBLK`, the key block (R25). -/
  kblk : Block
  /-- `KFILL`, the pending bytes of `KBLK` (R26). -/
  kfill : BitVec 7
  /-- `KLEN`, the key bytes emitted since `KINIT` (R27). -/
  klen : BitVec Config.klenW
  /-- `KLONG`, long-key mode (R28). -/
  klong : Bool
  /-- `H`, the SHA-1 chaining value of a long key (R29). -/
  h : Chain
  /-- `CTR`, the time counter (R30). -/
  ctr : Counter
  /-- `DIGEST`, the HMAC-SHA1 output (R32). -/
  digest : Digest
  /-- `OFFSET`, the truncation offset (R33). -/
  offset : BitVec 4
  /-- `BIN`, the truncated value (R34). -/
  bin : BitVec 31
  /-- `CODE`, the code as a binary number (R35). -/
  code : BitVec 20
  /-- `DIGITS`, the code as six ASCII digits (R36). -/
  digits : Digits
  /-- `RDATA`, the byte the last `PEEK` read (R37). -/
  rdata : Byte
  /-- `STATUS` (R38). -/
  status : Status
  /-- The host's moves not yet made, first one first (R80, R91). -/
  pending : List HostMove
  /-- `cp`, the number of command words accepted (R46). -/
  cp : Nat
deriving DecidableEq, Repr

/-- Why a step can stop with a fault: it cannot. An error of the block is a sticky flag and the next state
(60_exceptions.md R200, R207, R208; log 14), so no constructor stands here and nobody raises one. -/
inductive Fault where
deriving DecidableEq, Repr

/-- Why the model gives a step no meaning. -/
inductive Refusal where
  /-- Raised by `exec`'s arm of a command that has no meaning yet; safe. No arm is such an arm. -/
  | notModelled (mnemonic : String)
  /-- Raised by `KCHAR` alone, when the byte it would emit takes `KLEN` to 2^61 or beyond (40_base32_decoder.md R117,
  93_implementation_defined.md U1: 'refuse'; log 4); safe: nothing can be proved of such a run. -/
  | keyLengthLimit
deriving DecidableEq, Repr

/-- `STATUS` after reset: 0x00 (R50). -/
def Status.reset : Status :=
  { kv := false, cv := false, dv := false, ov := false, ka := false, isf := false, sqe := false, ill := false }

/-- The machine right after reset: every bit of the block is 0 (R50); the host has made no move and none is placed. -/
def State.reset : State :=
  { acc := 0#12
    nb := 0#4
    kne := false
    kblk := Vector.replicate Config.blockLen 0x00#8
    kfill := 0#7
    klen := 0#64
    klong := false
    h := Vector.replicate 5 0#32
    ctr := 0#64
    digest := Vector.replicate Config.digestLen 0x00#8
    offset := 0#4
    bin := 0#31
    code := 0#20
    digits := Vector.replicate Config.ndigits 0x00#8
    rdata := 0x00#8
    status := Status.reset
    pending := []
    cp := 0 }

end Sys2Proof.Machine
end

