-- ==== Sys2Proof/Machine/Operands.lean ====
section
/-! DEFINITION. The operand forms: the character a `KCHAR` carries (40_base32_decoder.md R102, R103) and the byte a
`PEEK` names (20_memory.md R61, R62). The 64-bit operand of `TLOAD` and `CLOAD` is taken as it stands
(30_encoding.md R83). -/

namespace Sys2Proof.Machine

/-- The 5-bit lookup (R102). -/
def b32val (c : Byte) : Option Symbol :=
  if 0x41 ≤ c.toNat ∧ c.toNat ≤ 0x5A then some (BitVec.ofNat Config.symW (c.toNat - 0x41))
  else if 0x61 ≤ c.toNat ∧ c.toNat ≤ 0x7A then some (BitVec.ofNat Config.symW (c.toNat - 0x61))
  else if 0x32 ≤ c.toNat ∧ c.toNat ≤ 0x37 then some (BitVec.ofNat Config.symW (c.toNat - 0x32 + 26))
  else none

/-- The three classes of a character code (R103). -/
inductive CharClass where
  | strip
  | symbol (v : Symbol)
  | invalid
deriving DecidableEq, Repr

/-- The classification of a character code: stripped, else looked up, else invalid (R103). -/
def charClass (c : Byte) : CharClass :=
  if c ∈ Config.strip then .strip
  else match b32val c with
    | some v => .symbol v
    | none => .invalid

/-- `MSG`, the serializer's view of `CTR` (10_state.md R31; 41_counter_serializer.md R131). -/
def msgOf (s : State) : Msg := be64 s.ctr

/-- `MemRead(s, i)`: the byte at index `i` of a PEEK space (20_memory.md R62). `none` where the index does not
exist; no decoded `PEEK` has such an index (30_encoding.md R86). -/
def memRead (space : PeekSpace) (i : Nat) (s : State) : Option Byte :=
  match space with
  | .kblk => s.kblk[i]?
  | .msg => (msgOf s)[i]?
  | .digest => s.digest[i]?
  | .digits => s.digits[i]?

end Sys2Proof.Machine
end

