-- ==== Sys2Proof/Machine/Flags.lean ====
section
/-! DEFINITION. The flags: the `STATUS` word the host reads, the writes of one flag, the precondition of each
command (10_state.md R38; 30_encoding.md R94). -/

namespace Sys2Proof.Machine

/-- `status[7:0]` as the port shows it: ILL, SQE, ISF, KA, OV, DV, CV, KV, most significant first (10_state.md R38). -/
def statusWord (f : Status) : BitVec 8 :=
  BitVec.ofBool f.ill ++ BitVec.ofBool f.sqe ++ BitVec.ofBool f.isf ++ BitVec.ofBool f.ka ++
    BitVec.ofBool f.ov ++ BitVec.ofBool f.dv ++ BitVec.ofBool f.cv ++ BitVec.ofBool f.kv

/-- `KV <- b`. -/
def setKv (b : Bool) (s : State) : State := { s with status := { s.status with kv := b } }

/-- `CV <- b`. -/
def setCv (b : Bool) (s : State) : State := { s with status := { s.status with cv := b } }

/-- `DV <- b`. -/
def setDv (b : Bool) (s : State) : State := { s with status := { s.status with dv := b } }

/-- `OV <- b`. -/
def setOv (b : Bool) (s : State) : State := { s with status := { s.status with ov := b } }

/-- `KA <- b`. -/
def setKa (b : Bool) (s : State) : State := { s with status := { s.status with ka := b } }

/-- `ISF <- b`. -/
def setIsf (b : Bool) (s : State) : State := { s with status := { s.status with isf := b } }

/-- `SQE <- b`. -/
def setSqe (b : Bool) (s : State) : State := { s with status := { s.status with sqe := b } }

/-- `ILL <- b`. -/
def setIll (b : Bool) (s : State) : State := { s with status := { s.status with ill := b } }

/-- The precondition of each command (30_encoding.md R94). -/
def precond (i : Instr) (s : State) : Bool :=
  match i with
  | .nop | .clr | .kinit | .tload _ | .cload _ | .peek _ _ => true
  | .kchar _ | .kend => s.status.ka
  | .mac | .gen => s.status.kv && s.status.cv
  | .trunc => s.status.dv

end Sys2Proof.Machine
end

