-- ==== Sys2Proof/Machine/Ops.lean ====
section
/-! DEFINITION. The shared operations: taking an error (60_exceptions.md R200 to R207), the two invalidations
(10_state.md R42, R43), the reset of the block (70_reset_and_hazards.md R220, R221), the key block and its engine
(40_base32_decoder.md R106, R108, R111), and the host's side of the command port (30_encoding.md R80). -/

namespace Sys2Proof.Machine

/-- The error conditions, all of them (60_exceptions.md R200). -/
inductive ErrorCause where
  /-- InvalidSecretFormat, `STATUS` bit 5 (R201). -/
  | invalidSecretFormat
  /-- A sequence error, `STATUS` bit 6 (R203). -/
  | sequenceError
  /-- An illegal command word, `STATUS` bit 7 (R204). -/
  | illegalCommand
deriving DecidableEq, Repr

/-- What taking an error does: it sets the one flag, saves nothing, and control goes nowhere (60_exceptions.md R207).
There is no return, because nothing was entered; a flag is cleared by the commands of 10_state.md R41 (R208). -/
def takeError (e : ErrorCause) (s : State) : State :=
  match e with
  | .invalidSecretFormat => setIsf true s
  | .sequenceError => setSqe true s
  | .illegalCommand => setIll true s

/-- A command word's effect under its precondition: where that fails the command is suppressed and `SQE` set, and no
operand is examined (30_encoding.md R90; 60_exceptions.md R203, R206). -/
def guarded (i : Instr) (run : State → Host.Outcome State Fault Refusal) (s : State) :
    Host.Outcome State Fault Refusal :=
  if precond i s then run s else .next (takeError .sequenceError s)

/-- `inval_code()` (10_state.md R42). -/
def invalCode (s : State) : State :=
  { setOv false s with
    offset := 0#4
    bin := 0#31
    code := 0#20
    digits := Vector.replicate Config.ndigits 0x00#8 }

/-- `inval_digest()` (10_state.md R43). -/
def invalDigest (s : State) : State :=
  invalCode { setDv false s with digest := Vector.replicate Config.digestLen 0x00#8 }

/-- The block in its reset state, the host's side as it was (10_state.md R50; 70_reset_and_hazards.md R221). -/
def resetBlock (s : State) : State := { State.reset with pending := s.pending, cp := s.cp }

/-- A 64-byte block of zeros. -/
def zeroBlock : Block := Vector.replicate Config.blockLen 0x00#8

/-- The first half of `key_push`: where the block is full, long-key mode is entered if it was not, the block is
compressed into `H` and emptied (40_base32_decoder.md R108, R110). -/
def keyMakeRoom (s : State) : State :=
  if s.kfill = BitVec.ofNat 7 Config.blockLen then
    let h := if s.klong then s.h else sha1Iv
    { s with klong := true, h := sha1Compress h s.kblk, kblk := zeroBlock, kfill := 0#7 }
  else s

/-- The second half of `key_push`: the byte is stored at `KBLK[KFILL]` and counted (40_base32_decoder.md R108). In a
state no run reaches, with `KFILL` above 64, there is no such byte and nothing is stored (log 5). -/
def keyStore (b : Byte) (s : State) : State :=
  { s with
    kblk := s.kblk.setIfInBounds s.kfill.toNat b
    kfill := s.kfill + 1#7
    klen := s.klen + 1#64 }

/-- `key_push(b)` (40_base32_decoder.md R108). -/
def keyPush (b : Byte) (s : State) : State := keyStore b (keyMakeRoom s)

/-- `ACC` after the shift: the 12-bit register with the five new bits as its low bits (40_base32_decoder.md R106). -/
def accShifted (acc : BitVec Config.accW) (v : Symbol) : BitVec Config.accW :=
  (acc <<< Config.symW) ||| v.setWidth Config.accW

/-- `shift_in(v)` (40_base32_decoder.md R106). `NB` is a 4-bit register, so its sums are of that width (log 5). -/
def shiftIn (v : Symbol) (s : State) : State :=
  let acc := accShifted s.acc v
  let nb := s.nb + BitVec.ofNat 4 Config.symW
  if 8#4 ≤ nb then
    let left := nb - 8#4
    keyPush ((acc >>> left.toNat).setWidth 8)
      { s with nb := left, acc := acc &&& ((1#12 <<< left.toNat) - 1#12) }
  else { s with nb := nb, acc := acc }

/-- Whether the next symbol completes a byte (40_base32_decoder.md R106). -/
def emitsByte (s : State) : Bool := decide (8#4 ≤ s.nb + BitVec.ofNat 4 Config.symW)

/-- Whether the next symbol takes `KLEN` to `KLEN_LIMIT` or beyond (40_base32_decoder.md R117; 00_scope.md R9). -/
def reachesKeyLimit (s : State) : Bool := emitsByte s && decide (Config.klenLimit ≤ s.klen.toNat + 1)

/-- `T` of `key_finish`: the pending bytes and the padding of the whole key (40_base32_decoder.md R111). -/
def keyTail (s : State) : List Byte :=
  s.kblk.toList.take s.kfill.toNat ++ sha1Pad s.kfill.toNat s.klen.toNat

/-- The key block made of a digest: its 20 bytes and 44 zeros (40_base32_decoder.md R111; 42_hmac_sha1.md R150). -/
def digestBlock (bytes : List Byte) : Block := blockOf (bytes ++ List.replicate (Config.blockLen - Config.digestLen) 0x00#8)

/-- `key_finish()`: the SHA-1 of the key is completed and K0 made from it (40_base32_decoder.md R111). -/
def keyFinish (s : State) : State :=
  { s with
    kblk := digestBlock (chainBytes (sha1Blocks ((keyTail s).length / 64) s.h (keyTail s)))
    h := zeroChain }

/-- The host's next move is made: it leaves the list (30_encoding.md R80, R91). -/
def takeMove (s : State) : State := { s with pending := s.pending.tail }

/-- A word is accepted: it leaves the list and `cp` advances by exactly 1 (10_state.md R46). -/
def acceptWord (s : State) : State := { takeMove s with cp := s.cp + 1 }

/-- The host presents a word next, before the moves it had still to make (30_encoding.md R80). -/
def presentWord (w : CmdWord) (s : State) : State := { s with pending := .command w :: s.pending }

end Sys2Proof.Machine
end

