-- ==== Sys2Proof/Machine/Base32.lean ====
section
/-! DEFINITION. B32, the secret decoder: `KINIT`, `KCHAR`, `KEND` (40_base32_decoder.md R104, R105, R112). -/

namespace Sys2Proof.Machine

/-- `KINIT`: open a secret ingest, whatever was in progress (R104; 10_state.md R40). -/
def execKinit (s : State) : Host.Outcome State Fault Refusal :=
  .next (invalDigest
    { setKa true (setIsf false (setKv false s)) with
      acc := 0#12
      nb := 0#4
      kne := false
      kblk := zeroBlock
      kfill := 0#7
      klen := 0#64
      klong := false
      h := zeroChain })

/-- What `KCHAR` does once its precondition holds: nothing after an invalid character, else by the character's class
(R105, R115). The model gives no meaning to the character that takes `KLEN` to 2^61 (R117; log 4). -/
def kcharBody (ch : Byte) (s : State) : Host.Outcome State Fault Refusal :=
  if s.status.isf then .next s
  else match charClass ch with
    | .strip => .next s
    | .invalid => .next (takeError .invalidSecretFormat s)
    | .symbol v =>
      if reachesKeyLimit s then .refused .keyLengthLimit
      else .next (shiftIn v { s with kne := true })

/-- `KCHAR ch`: the next character of the secret (R105). -/
def execKchar (ch : Byte) (s : State) : Host.Outcome State Fault Refusal := guarded (.kchar ch) (kcharBody ch) s

/-- What `KEND` does once its precondition holds (R112 to R115). -/
def kendBody (s : State) : State :=
  let s1 := { setKa false s with acc := 0#12, nb := 0#4 }
  if s.status.isf then { s1 with kfill := 0#7, h := zeroChain }
  else if s.kne then
    setKv true { (if s.klong then keyFinish s1 else s1) with kfill := 0#7 }
  else { takeError .invalidSecretFormat s1 with kfill := 0#7 }

/-- `KEND`: close the ingest, validate the secret, make the key ready (R112). -/
def execKend (s : State) : Host.Outcome State Fault Refusal := guarded .kend (fun s => .next (kendBody s)) s

end Sys2Proof.Machine
end

