-- ==== Sys2Proof/Machine/Counter.lean ====
section
/-! DEFINITION. CTR, the counter serializer: `TLOAD`, `CLOAD` (41_counter_serializer.md R132, R133). -/

namespace Sys2Proof.Machine

/-- The counter of a time: floor division by the period on the full 64-bit operand (R132, R134). -/
def counterOf (t : Word64) : Counter := BitVec.ofNat Config.ctrW (t.toNat / Config.period)

/-- A counter is loaded: it is valid, and any digest and code are not (R132, R133). -/
def loadCounter (c : Counter) (s : State) : State := invalDigest { setCv true s with ctr := c }

/-- `TLOAD imm64`: load the time (R132). -/
def execTload (imm64 : Word64) (s : State) : Host.Outcome State Fault Refusal :=
  .next (loadCounter (counterOf imm64) s)

/-- `CLOAD imm64`: load the counter, with no division (R133). -/
def execCload (imm64 : Word64) (s : State) : Host.Outcome State Fault Refusal := .next (loadCounter imm64 s)

end Sys2Proof.Machine
end

