-- ==== Sys2Proof/Machine/HostCommands.lean ====
section
/-! DEFINITION. The host commands `NOP`, `CLR` and `PEEK` (44_host_commands.md R190 to R192). -/

namespace Sys2Proof.Machine

/-- `NOP`: no state change (R190). -/
def execNop (s : State) : Host.Outcome State Fault Refusal := .next s

/-- `CLR`: every register and flag to its reset value (R191). -/
def execClr (s : State) : Host.Outcome State Fault Refusal := .next (resetBlock s)

/-- `PEEK s, i`: `RDATA <- MemRead(s, i)` (R192). Given an index no word encodes, the illegal command is taken
(30_encoding.md R86; log 6). -/
def execPeek (space : PeekSpace) (i : Byte) (s : State) : Host.Outcome State Fault Refusal :=
  match memRead space i.toNat s with
  | some b => .next { s with rdata := b }
  | none => .next (takeError .illegalCommand s)

end Sys2Proof.Machine
end

