-- ==== Sys2Proof/Machine/Mac.lean ====
section
/-! DEFINITION. MAC, the HMAC-SHA1 core: the key XOR padding, the four compressions of `HASH`, the command `MAC`
(42_hmac_sha1.md R152 to R154; 00_scope.md R7). -/

namespace Sys2Proof.Machine

/-- The key block XORed with a pad byte, byte by byte: `IB` and `OB` (R153). -/
def padKey (pad : Byte) (k : Block) : Block := k.map fun b => b ^^^ pad

/-- `B2`, the inner hash's second block: the message and the padding of 72 bytes (R154). -/
def innerTail (m : Msg) : Block :=
  blockOf (m.toList ++ [0x80#8] ++ List.replicate 53 0x00#8 ++ [0x02#8, 0x40#8])

/-- `B4`, the outer hash's second block: the inner digest and the padding of 84 bytes (R154). -/
def outerTail (inner : List Byte) : Block :=
  blockOf (inner ++ [0x80#8] ++ List.replicate 41 0x00#8 ++ [0x02#8, 0xA0#8])

/-- `INNER`, the inner digest (R152). -/
@[irreducible] def innerDigest (k : Block) (c : Counter) : List Byte :=
  let compress := hashCompress Config.hash
  chainBytes (compress (compress (hashIv Config.hash) (padKey Config.ipad k)) (innerTail (be64 c)))

/-- The digest of a key block and a counter, by four compressions (R152). -/
@[irreducible] def macDigest (k : Block) (c : Counter) : Digest :=
  let compress := hashCompress Config.hash
  chainDigest (compress (compress (hashIv Config.hash) (padKey Config.opad k)) (outerTail (innerDigest k c)))

/-- `mac_core()`: `DIGEST` and `DV <- 1`, from `KBLK` and `CTR` alone (R152, R155). -/
def macCore (s : State) : State := { setDv true s with digest := macDigest s.kblk s.ctr }

/-- `MAC`: the HMAC-SHA1 of the serialised counter; a new digest makes any code stale (R152). -/
def execMac (s : State) : Host.Outcome State Fault Refusal :=
  guarded .mac (fun s => .next (macCore (invalCode s))) s

end Sys2Proof.Machine
end

