-- ==== Sys2Proof/Machine/Truncator.lean ====
section
/-! DEFINITION. TRC, the dynamic truncator, the modulo-1,000,000 reducer and the 6-digit formatter: `TRUNC`, `GEN`
(43_truncator.md R171 to R177). The arithmetic is irreducible, so that no unifier evaluates it unasked. -/

namespace Sys2Proof.Machine

/-- `OFFSET`: the low nibble of the last digest byte (R171, R173). -/
@[irreducible] def truncOffset (d : Digest) : BitVec 4 := (d[19] &&& Config.offsetMask).setWidth 4

/-- The byte `DIGEST[OFFSET + k]`, `k` at most 3: never outside the 20 bytes (R173). -/
def selectByte (d : Digest) (k : Fin 4) : Byte :=
  d[(truncOffset d).toNat + k.val]'(by have := (truncOffset d).isLt; simp; omega)

/-- `BIN`: the four selected bytes big-endian, bit 7 of the first cleared before the shift (R171, R172). -/
@[irreducible] def truncBin (d : Digest) : BitVec 31 :=
  ((selectByte d 0 &&& Config.signMask).setWidth 31 <<< 24) |||
    ((selectByte d 1).setWidth 31 <<< 16) |||
    ((selectByte d 2).setWidth 31 <<< 8) |||
    (selectByte d 3).setWidth 31

/-- `CODE`: the remainder by 1,000,000 (R171, R174). -/
@[irreducible] def codeOf (b : BitVec 31) : BitVec 20 := BitVec.ofNat 20 (b.toNat % Config.modulus)

/-- `DIGITS`: six ASCII digits, most significant first (R171, R175). -/
@[irreducible] def digitsOf (c : BitVec 20) : Digits :=
  Vector.ofFn fun i : Fin Config.ndigits => BitVec.ofNat 8 (0x30 + c.toNat / 10 ^ (Config.ndigits - 1 - i.val) % 10)

/-- `trunc_core()` (R171). -/
def truncCore (s : State) : State :=
  { setOv true s with
    offset := truncOffset s.digest
    bin := truncBin s.digest
    code := codeOf (truncBin s.digest)
    digits := digitsOf (codeOf (truncBin s.digest)) }

/-- `TRUNC`: truncate the digest to the 6-digit code (R171). -/
def execTrunc (s : State) : Host.Outcome State Fault Refusal := guarded .trunc (fun s => .next (truncCore s)) s

/-- `GEN`: `MAC` then `TRUNC` as one command (R177). -/
def execGen (s : State) : Host.Outcome State Fault Refusal :=
  guarded .gen (fun s => .next (truncCore (macCore (invalCode s)))) s

end Sys2Proof.Machine
end

