-- ==== Sys2Proof/Machine/Dispatch.lean ====
section
/-! DEFINITION. One arm per command (30_encoding.md R90 `exec`; each meaning checks its own precondition, R94). -/

namespace Sys2Proof.Machine

def exec (i : Instr) (s : State) : Host.Outcome State Fault Refusal :=
  match i with
  | .nop => Sys2Proof.Machine.execNop s
  | .clr => Sys2Proof.Machine.execClr s
  | .kinit => Sys2Proof.Machine.execKinit s
  | .kchar ch => Sys2Proof.Machine.execKchar ch s
  | .kend => Sys2Proof.Machine.execKend s
  | .tload imm64 => Sys2Proof.Machine.execTload imm64 s
  | .cload imm64 => Sys2Proof.Machine.execCload imm64 s
  | .mac => Sys2Proof.Machine.execMac s
  | .trunc => Sys2Proof.Machine.execTrunc s
  | .gen => Sys2Proof.Machine.execGen s
  | .peek space index => Sys2Proof.Machine.execPeek space index s

end Sys2Proof.Machine
end

