-- ==== Sys2Proof/Machine/CommandWord.lean ====
section
/-! DEFINITION. What an accepted command word does to the block (30_encoding.md R90): the spec's step function, of a
state and a 72-bit word. -/

namespace Sys2Proof.Machine

/-- The effect of an accepted word: an illegal word sets `ILL` and nothing else (60_exceptions.md R204), a legal one
is the command it decodes to, whose meaning checks its own precondition (30_encoding.md R90, R94). -/
def execWord (w : CmdWord) (s : State) : Host.Outcome State Fault Refusal :=
  match decode w with
  | .error _ => .next (takeError .illegalCommand s)
  | .ok i => exec i s

end Sys2Proof.Machine
end

