-- ==== Sys2Proof/Machine/Step.lean ====
section
/-! DEFINITION. One step of the machine: the host's next move is made (30_encoding.md R90, R91). -/

namespace Sys2Proof.Machine

/-- One move of the host. A word is accepted and has its effect (30_encoding.md R90); a reset puts the block in its
reset state (70_reset_and_hazards.md R220); with no move to make the block is idle and holds its state
(60_exceptions.md R215). -/
def step (s : State) : Host.Outcome State Fault Refusal :=
  match s.pending with
  | [] => .next s
  | .reset :: _ => .next (resetBlock (takeMove s))
  | .command w :: _ => execWord w (acceptWord s)

/-- `s` with the host about to present the word whose bits, numbered as spec/opcode_table.json numbers them, are `w`:
the next step accepts exactly it (log 1). -/
def State.withFetchWord (s : State) (nbits w : Nat) : State := presentWord (BitVec.ofNat Config.cmdW (w % 2 ^ nbits)) s

end Sys2Proof.Machine
end

