-- ==== Sys2Proof/Machine/Assembler.lean ====
section
/-! DEFINITION. The text form of commands and the pseudo-commands (30_encoding.md R88, R89): one command a line, the
mnemonic in capitals, operands separated by a comma, `;` to the end of the line a comment. What the spec does not say
of the text is in log 13. -/

namespace Sys2Proof.Machine

/-- `SECRET "..."`: the ingest of a byte string (R89). -/
def secretProgram (secret : List Byte) : List Instr := .kinit :: (secret.map Instr.kchar ++ [.kend])

/-- `TOTP "...", t` (R89). -/
def totpProgram (secret : List Byte) (t : Word64) : List Instr := secretProgram secret ++ [.tload t, .gen]

/-- `HOTP "...", c` (R89). -/
def hotpProgram (secret : List Byte) (c : Word64) : List Instr := secretProgram secret ++ [.cload c, .gen]

/-- The pieces of a line. -/
inductive AsmToken where
  /-- a mnemonic, a space name or a number -/
  | word (cs : List Char)
  /-- a quoted character -/
  | char (c : Char)
  /-- a quoted string -/
  | string (cs : List Char)
  | comma
deriving DecidableEq, Repr

/-- The quotation mark of a string, code 0x22. -/
def doubleQuote : Char := Char.ofNat 34

/-- The quotation mark of a character, code 0x27. -/
def singleQuote : Char := Char.ofNat 39

/-- Whether a character separates pieces and is no piece itself. -/
def isBlank (c : Char) : Bool := c == ' ' || c == Char.ofNat 9

/-- Whether a character belongs to a mnemonic, a name or a number. -/
def isWordChar (c : Char) : Bool := c.isAlphanum

/-- The pieces of a line, read with at most `fuel` of them; `none` where the text has no meaning. -/
def asmTokens : Nat → List Char → Option (List AsmToken)
  | 0, _ => none
  | _ + 1, [] => some []
  | fuel + 1, c :: cs =>
    if c == ';' then some []
    else if isBlank c then asmTokens fuel cs
    else if c == ',' then (asmTokens fuel cs).map (AsmToken.comma :: ·)
    else if c == singleQuote then
      match cs with
      | x :: q :: rest => if q == singleQuote then (asmTokens fuel rest).map (AsmToken.char x :: ·) else none
      | _ => none
    else if c == doubleQuote then
      match cs.dropWhile (· != doubleQuote) with
      | [] => none
      | _ :: rest => (asmTokens fuel rest).map (AsmToken.string (cs.takeWhile (· != doubleQuote)) :: ·)
    else if isWordChar c then
      (asmTokens fuel (cs.dropWhile isWordChar)).map (AsmToken.word (c :: cs.takeWhile isWordChar) :: ·)
    else none

/-- The value of a digit, decimal or hexadecimal. -/
def digitValue (c : Char) : Option Nat :=
  if '0' ≤ c ∧ c ≤ '9' then some (c.toNat - 48)
  else if 'A' ≤ c ∧ c ≤ 'F' then some (c.toNat - 55)
  else if 'a' ≤ c ∧ c ≤ 'f' then some (c.toNat - 87)
  else none

/-- The value of digits in a base, most significant first. -/
def digitsValue (base : Nat) : Nat → List Char → Option Nat
  | n, [] => some n
  | n, c :: cs =>
    match digitValue c with
    | some k => if k < base then digitsValue base (base * n + k) cs else none
    | none => none

/-- An unsigned number, decimal or `0x` hexadecimal (R88). -/
def asmNumber (cs : List Char) : Option Nat :=
  match cs with
  | [] => none
  | '0' :: 'x' :: c :: rest => digitsValue 16 0 (c :: rest)
  | _ => digitsValue 10 0 cs

/-- A number that fits in `w` bits. -/
def asmBits (w : Nat) (cs : List Char) : Option (BitVec w) :=
  match asmNumber cs with
  | some n => if n < 2 ^ w then some (BitVec.ofNat w n) else none
  | none => none

/-- A PEEK space, by name or number (R88). -/
def asmSpace (cs : List Char) : Option PeekSpace :=
  if cs = ['K', 'B', 'L', 'K'] then some .kblk
  else if cs = ['M', 'S', 'G'] then some .msg
  else if cs = ['D', 'I', 'G', 'E', 'S', 'T'] then some .digest
  else if cs = ['D', 'I', 'G', 'I', 'T', 'S'] then some .digits
  else (asmBits 4 cs).bind spaceOf

/-- The code of a character of a line: one byte. -/
def charByte (c : Char) : Option Byte := if c.toNat < 256 then some (BitVec.ofNat 8 c.toNat) else none

/-- Whether a quoted character is printable ASCII (R88). -/
def isPrintable (c : Char) : Bool := decide (0x20 ≤ c.toNat ∧ c.toNat ≤ 0x7E)

/-- A command with no operand, by its mnemonic (R84, R88). -/
def asmPlain (cs : List Char) : Option Instr :=
  if cs = ['N', 'O', 'P'] then some .nop
  else if cs = ['C', 'L', 'R'] then some .clr
  else if cs = ['K', 'I', 'N', 'I', 'T'] then some .kinit
  else if cs = ['K', 'E', 'N', 'D'] then some .kend
  else if cs = ['M', 'A', 'C'] then some .mac
  else if cs = ['T', 'R', 'U', 'N', 'C'] then some .trunc
  else if cs = ['G', 'E', 'N'] then some .gen
  else none

/-- A command or pseudo-command with one operand. -/
def asmOne (cs : List Char) (operand : AsmToken) : Option (List Instr) :=
  match operand with
  | .word n =>
    if cs = ['K', 'C', 'H', 'A', 'R'] then (asmBits 8 n).map fun b => [.kchar b]
    else if cs = ['T', 'L', 'O', 'A', 'D'] then (asmBits 64 n).map fun t => [.tload t]
    else if cs = ['C', 'L', 'O', 'A', 'D'] then (asmBits 64 n).map fun c => [.cload c]
    else none
  | .char c =>
    if cs = ['K', 'C', 'H', 'A', 'R'] ∧ isPrintable c then (charByte c).map fun b => [.kchar b] else none
  | .string body =>
    if cs = ['S', 'E', 'C', 'R', 'E', 'T'] then (body.mapM charByte).map secretProgram else none
  | .comma => none

/-- A command or pseudo-command with two operands. -/
def asmTwo (cs : List Char) (first second : AsmToken) : Option (List Instr) :=
  match first, second with
  | .word space, .word index =>
    if cs = ['P', 'E', 'E', 'K'] then
      match asmSpace space, asmBits 8 index with
      | some s, some i => if i.toNat < s.size then some [.peek s i] else none
      | _, _ => none
    else none
  | .string body, .word n =>
    match body.mapM charByte, asmBits 64 n with
    | some secret, some v =>
      if cs = ['T', 'O', 'T', 'P'] then some (totpProgram secret v)
      else if cs = ['H', 'O', 'T', 'P'] then some (hotpProgram secret v)
      else none
    | _, _ => none
  | _, _ => none

/-- The commands of a line of text: none for an empty or comment line, the expansion for a pseudo-command; no result
where the line is no command of R88 or R89. -/
def assemble (line : List Char) : Option (List Instr) :=
  match asmTokens (line.length + 1) line with
  | some [] => some []
  | some [.word m] => (asmPlain m).map fun i => [i]
  | some [.word m, operand] => asmOne m operand
  | some [.word m, first, .comma, second] => asmTwo m first second
  | _ => none

end Sys2Proof.Machine
end

