-- ==== Sys2Proof/Machine/Ports.lean ====
section
/-! DEFINITION. The output ports: plain views of the registers at all times, with no gating (10_state.md R44, R45),
and what a host makes of them (60_exceptions.md R216). There is no moment inside a command (log 7). -/

namespace Sys2Proof.Machine

/-- `status` (10_state.md R38, R44). -/
def portStatus (s : State) : BitVec 8 := statusWord s.status

/-- `code_bin` (R44). -/
def portCodeBin (s : State) : BitVec 20 := s.code

/-- `code_ascii`: the first character in the most significant byte (R45). -/
def portCodeAscii (s : State) : BitVec 48 :=
  s.digits[0] ++ s.digits[1] ++ s.digits[2] ++ s.digits[3] ++ s.digits[4] ++ s.digits[5]

/-- `rdata` (R44). -/
def portRdata (s : State) : Byte := s.rdata

/-- `cmd_ready` between two commands: 1, but 0 while `rst` is asserted (30_encoding.md R92; 70_reset_and_hazards.md
R220, R231; log 11). -/
def portCmdReady (s : State) : Bool := s.pending.head? != some .reset

/-- What a host that has just run `TOTP "secret", t` reads from the block (60_exceptions.md R216). -/
inductive HostReading where
  /-- `Ok(code_ascii as 6 characters)` -/
  | ok (code : BitVec 48)
  /-- `Err(InvalidSecretFormat)` -/
  | invalidSecretFormat
  /-- the host's own bug -/
  | hostError
deriving DecidableEq, Repr

/-- The mapping of `status` to the document's result (60_exceptions.md R202, R216). -/
def hostReading (s : State) : HostReading :=
  if portStatus s = 0x0F#8 then .ok (portCodeAscii s)
  else if s.status.isf then .invalidSecretFormat
  else .hostError

end Sys2Proof.Machine
end

