-- ==== Sys2Proof/Machine/Reference.lean ====
section
/-! DEFINITION. The functions the block must realise, as functions of byte strings and numbers: the Base32 decode and
encode (40_base32_decoder.md R100, R118), HMAC-SHA1 (42_hmac_sha1.md R150, R151), the code of a digest and the
document's `generateCode` (00_scope.md R16; 43_truncator.md R170). Claims compare the machine with them; no command
uses them. -/

namespace Sys2Proof.Machine

/-- The five bits of a symbol, bit 4 first (R100; 20_memory.md R67). -/
def symbolBits (v : Symbol) : List Bool :=
  [v.getLsbD 4, v.getLsbD 3, v.getLsbD 2, v.getLsbD 1, v.getLsbD 0]

/-- The eight bits of a byte, bit 7 first (20_memory.md R67). -/
def byteBits (b : Byte) : List Bool :=
  [b.getLsbD 7, b.getLsbD 6, b.getLsbD 5, b.getLsbD 4, b.getLsbD 3, b.getLsbD 2, b.getLsbD 1, b.getLsbD 0]

/-- A bit sequence as a number, first bit most significant. -/
def bitsValue (bits : List Bool) : Nat := bits.foldl (fun n b => 2 * n + b.toNat) 0

/-- The first `n` bytes of a bit sequence (R100). -/
def packBytes : Nat → List Bool → List Byte
  | 0, _ => []
  | n + 1, bits => BitVec.ofNat 8 (bitsValue (bits.take 8)) :: packBytes n (bits.drop 8)

/-- The bit sequence `BITS` of a list of symbols (R100). -/
def symbolsBits (vs : List (Symbol)) : List Bool := vs.flatMap symbolBits

/-- The key of a list of symbols: `(5k) div 8` bytes, the last `(5k) mod 8` bits dropped (R100). -/
def symbolsKey (vs : List (Symbol)) : List Byte := packBytes (Config.symW * vs.length / 8) (symbolsBits vs)

/-- The symbols of a secret with its strip characters removed; `none` where a character is invalid (R100, R103). -/
def secretSymbols : List Byte → Option (List (Symbol))
  | [] => some []
  | c :: cs =>
    match charClass c with
    | .strip => secretSymbols cs
    | .invalid => none
    | .symbol v => (secretSymbols cs).map (v :: ·)

/-- The document's `decode(secret)`: `none` is InvalidSecretFormat, for an invalid character and for the secret with
no alphabet character at all (R100, R114). -/
def b32Decode (secret : List Byte) : Option (List Byte) :=
  match secretSymbols secret with
  | none => none
  | some [] => none
  | some vs => some (symbolsKey vs)

/-- The character of a symbol, capital letters (R102). -/
def symbolChar (v : Symbol) : Byte :=
  if v.toNat < 26 then BitVec.ofNat 8 (0x41 + v.toNat) else BitVec.ofNat 8 (0x32 + (v.toNat - 26))

/-- The first `n` characters of a bit sequence, five bits each (R118). -/
def packChars : Nat → List Bool → List Byte
  | 0, _ => []
  | n + 1, bits =>
    symbolChar (BitVec.ofNat Config.symW (bitsValue (bits.take Config.symW))) :: packChars n (bits.drop Config.symW)

/-- The unpadded Base32 encoding: `ceil(8n / 5)` characters, zero bits below the last data bits (R118). -/
def b32Encode (bytes : List Byte) : List Byte :=
  packChars ((8 * bytes.length + (Config.symW - 1)) / Config.symW) (bytes.flatMap byteBits ++ List.replicate (Config.symW - 1) false)

/-- K0, the key block of a key (42_hmac_sha1.md R150). -/
def keyBlock (key : List Byte) : List Byte :=
  if key.length ≤ Config.blockLen then key ++ List.replicate (Config.blockLen - key.length) 0x00#8
  else hashBytes Config.hash key ++ List.replicate (Config.blockLen - Config.digestLen) 0x00#8

/-- A byte string XORed with a pad byte (42_hmac_sha1.md R151). -/
def xorPad (pad : Byte) (bytes : List Byte) : List Byte := bytes.map fun b => b ^^^ pad

/-- HMAC-SHA1 of a key and a message (42_hmac_sha1.md R151). -/
def hmacSha1 (key m : List Byte) : List Byte :=
  hashBytes Config.hash (xorPad Config.opad (keyBlock key) ++
    hashBytes Config.hash (xorPad Config.ipad (keyBlock key) ++ m))

/-- `offset = digest[19] & 0x0F` as a number (00_scope.md R16 step 4). -/
def codeOffset (d : List Byte) : Nat := (d.getD 19 0).toNat % 16

/-- The big-endian value of four digest bytes with the sign bit cleared, as a number (R16 step 4). -/
def codeValue (d : List Byte) : Nat :=
  let b := fun k => (d.getD (codeOffset d + k) 0).toNat
  (b 0 % 128) * 2 ^ 24 + b 1 * 2 ^ 16 + b 2 * 2 ^ 8 + b 3

/-- A number below 10^6 in decimal, left-padded with `'0'` to six characters (R16 step 5). -/
def sixDigits (n : Nat) : List Byte :=
  let ds := (Nat.digits 10 n).reverse.map fun k => BitVec.ofNat 8 (0x30 + k)
  List.replicate (Config.ndigits - ds.length) 0x30#8 ++ ds

/-- The code of a digest (R16 steps 4 and 5). -/
def digestCode (d : List Byte) : List Byte := sixDigits (codeValue d % Config.modulus)

/-- The document's `generateCode(secret, nowEpochSeconds)`: `none` is InvalidSecretFormat (R16). -/
def generateCode (secret : List Byte) (t : Word64) : Option (List Byte) :=
  (b32Decode secret).map fun key =>
    digestCode (hmacSha1 key (be64 (BitVec.ofNat Config.ctrW (t.toNat / Config.period))).toList)

end Sys2Proof.Machine
end

