-- ==== Sys2Proof/Safety.lean ====
section
/-! DEFINITION. What holds of every state a run reaches (10_state.md R49), and a run of commands
(30_encoding.md R91), in the terms claims use. -/

namespace Sys2Proof.Machine

/-- The decoder's registers (10_state.md R22, R23, R24, R26, R49 items 1, 2, 3). -/
structure State.DecoderInv (s : State) : Prop where
  /-- `NB` counts the live bits and `ACC` has no other bit set. -/
  live : s.nb.toNat ≤ 7 ∧ s.acc.toNat < 2 ^ s.nb.toNat
  /-- Outside an ingest the decoder is empty. -/
  idle : s.status.ka = false → s.acc = 0#12 ∧ s.nb = 0#4 ∧ s.kfill = 0#7
  /-- The key block holds at most 64 pending bytes, and zeros after them. -/
  fill : s.kfill.toNat ≤ 64 ∧
    (s.status.ka = true → ∀ (i : Nat) (h : i < 64), s.kfill.toNat ≤ i → s.kblk[i] = 0x00#8)
  /-- Before the first symbol of an ingest nothing is held. -/
  noSymbol : s.status.ka = true → s.kne = false → s.acc = 0#12 ∧ s.nb = 0#4 ∧ s.klen = 0#64

/-- The key's length and its long-key mode (10_state.md R26, R27, R28, R29, R49 items 4, 5). -/
structure State.KeyInv (s : State) : Prop where
  /-- `KLEN` stays below its limit (40_base32_decoder.md R117). -/
  limit : s.klen.toNat < Config.klenLimit
  long : s.klong = true ↔ 64 < s.klen.toNat
  chain : ¬(s.status.ka = true ∧ s.klong = true) → s.h = zeroChain
  pendingShort : s.status.ka = true → s.klong = false → s.kfill.toNat = s.klen.toNat
  pendingLong : s.status.ka = true → s.klong = true → s.kfill.toNat = (s.klen.toNat - 1) % 64 + 1

/-- What each validity flag promises (10_state.md R39, R49 items 6 to 11). -/
structure State.FlagInv (s : State) : Prop where
  key : s.status.kv = true → s.status.ka = false ∧ s.status.isf = false ∧ s.kne = true
  /-- K0 ends in the zeros its key leaves. -/
  keyZeros : s.status.kv = true → ∀ (i : Nat) (h : i < 64),
    (if s.klong then 20 else s.klen.toNat) ≤ i → s.kblk[i] = 0x00#8
  counter : s.status.cv = false → s.ctr = 0#64
  digestValid : s.status.dv = true →
    s.status.kv = true ∧ s.status.cv = true ∧ s.digest = macDigest s.kblk s.ctr
  digestStale : s.status.dv = false → s.digest = Vector.replicate 20 0x00#8
  codeValid : s.status.ov = true → s.status.dv = true ∧ s.offset = truncOffset s.digest ∧
    s.bin = truncBin s.digest ∧ s.code = codeOf s.bin ∧ s.digits = digitsOf s.code
  codeStale : s.status.ov = false →
    s.offset = 0#4 ∧ s.bin = 0#31 ∧ s.code = 0#20 ∧ s.digits = Vector.replicate 6 0x00#8
  codeRange : s.code.toNat ≤ 999999
  untouched : s.status.ka = false → s.status.kv = false → s.status.isf = false →
    s.kblk = zeroBlock ∧ s.klen = 0#64 ∧ s.klong = false ∧ s.kne = false

/-- The invariant of the block (10_state.md R49). -/
structure State.Inv (s : State) : Prop where
  decoder : s.DecoderInv
  keyLength : s.KeyInv
  flags : s.FlagInv

/-- The words that are no command, by their opcode byte `op` and operand `d` as numbers: an unassigned opcode byte, a
reserved bit set, or a `PEEK` of a byte that does not exist (30_encoding.md R85, R86). -/
def IllegalFields (op d : Nat) : Prop :=
  op ∉ [0x00, 0x01, 0x10, 0x11, 0x12, 0x20, 0x21, 0x30, 0x31, 0x32, 0x40] ∨
    (op ∈ [0x00, 0x01, 0x10, 0x12, 0x30, 0x31, 0x32] ∧ d ≠ 0) ∨
    (op = 0x11 ∧ 256 ≤ d) ∨
    (op = 0x40 ∧
      (4096 ≤ d ∨ 4 ≤ d / 256 % 16 ∨
        (d / 256 % 16 = 0 ∧ 64 ≤ d % 256) ∨ (d / 256 % 16 = 1 ∧ 8 ≤ d % 256) ∨
        (d / 256 % 16 = 2 ∧ 20 ≤ d % 256) ∨ (d / 256 % 16 = 3 ∧ 6 ≤ d % 256)))

/-- The illegal words: the opcode is bits 71:64, the operand bits 63:0 (30_encoding.md R81, R86). -/
def IllegalWord (w : CmdWord) : Prop := IllegalFields (w.toNat / 2 ^ 64) (w.toNat % 2 ^ 64)

/-- The commands of a list, executed in order (30_encoding.md R91). -/
def runCommands : List Instr → State → Host.Outcome State Fault Refusal
  | [], s => .next s
  | i :: is, s =>
    match exec i s with
    | .next t => runCommands is t
    | .fault r => .fault r
    | .refused r => .refused r

/-- The characters of a secret given to an open ingest, in order (40_base32_decoder.md R101). -/
def feed (cs : List Byte) (s : State) : Host.Outcome State Fault Refusal := runCommands (cs.map Instr.kchar) s

/-- The host's moves that present the words of a list of commands, in order. -/
def movesOf (is : List Instr) : List HostMove := is.map fun i => .command (encode i)

end Sys2Proof.Machine
end

