-- ==== Sys2Proof/Certificates/Slice0/Obligations.lean ====
section
/-! DEFINITION. What is claimed of the TOTP core, for the provers. Each statement's docstring names the rules of spec/ it
formalises, and the log entry where it rests on a choice of the model. -/

open Sys2Proof Sys2Proof.Machine

/-! ## Encoding -/

/-- R87 (the spec's own inference): `decode` inverts `encode` on every command in range, every operand at every value. -/
def Obligations.DecodeOfEncode : Prop :=
  ∀ i : Instr, i.WellFormed → decode (encode i) = .ok i

/-- R87 (the spec's own inference): a legal word is the one word of its command, so decoding is injective on legal words. -/
def Obligations.EncodeOfDecode : Prop :=
  ∀ (w : CmdWord) (i : Instr), decode w = .ok i → i.WellFormed ∧ encode i = w

/-- R84: a word selects a row exactly when `CMD & mask = match` (and, for `PEEK`, the range condition holds), and the
operand is then the field as it stands. -/
def Obligations.TableRowsSelectCommands : Prop :=
  ∀ (w : CmdWord) (i : Instr),
    decode w = .ok i ↔
      w &&& opcodeMask (opcodeOfInstr i) = opcodeMatch (opcodeOfInstr i) ∧
        match i with
        | .kchar ch => ch.toNat = w.toNat % 2 ^ 8
        | .tload x => x.toNat = w.toNat % 2 ^ 64
        | .cload x => x.toNat = w.toNat % 2 ^ 64
        | .peek s k => (spaceNumber s).toNat = w.toNat / 2 ^ 8 % 2 ^ 4 ∧ k.toNat = w.toNat % 2 ^ 8 ∧ k.toNat < s.size
        | _ => True

/-- R85, R86, R204: exactly the words listed there are illegal; one is accepted like any other (`cp` advances), its
whole effect is `ILL <- 1`. That it is accepted is said over the model's own list of host moves (log 1) and its `cp`
(log 2). -/
def Obligations.IllegalWordsSetIllAndNothingElse : Prop :=
  ∀ (w : CmdWord),
    (¬ IllegalWord w → ∃ i, decode w = .ok i) ∧
    (IllegalWord w → (∃ e, decode w = .error e) ∧
      (∀ s : State, execWord w s = .next { s with status := { s.status with ill := true } }) ∧
      ∀ (s : State) (rest : List HostMove), s.pending = .command w :: rest →
        step s = .next { s with pending := rest, cp := s.cp + 1, status := { s.status with ill := true } })

/-- Words written out from R82 and R84 (and 95_test_vectors.md) decode to the commands they stand for. -/
def Obligations.SpecWordsDecode : Prop :=
  decode 0x00_0000000000000000#72 = .ok .nop ∧
  decode 0x01_0000000000000000#72 = .ok .clr ∧
  decode 0x10_0000000000000000#72 = .ok .kinit ∧
  decode 0x11_000000000000004D#72 = .ok (.kchar 0x4D#8) ∧
  decode 0x12_0000000000000000#72 = .ok .kend ∧
  decode 0x20_000000000000003B#72 = .ok (.tload 59#64) ∧
  decode 0x21_0123456789ABCDEF#72 = .ok (.cload 0x0123456789ABCDEF#64) ∧
  decode 0x30_0000000000000000#72 = .ok .mac ∧
  decode 0x31_0000000000000000#72 = .ok .trunc ∧
  decode 0x32_0000000000000000#72 = .ok .gen ∧
  decode 0x40_000000000000003F#72 = .ok (.peek .kblk 63#8) ∧
  decode 0x40_0000000000000107#72 = .ok (.peek .msg 7#8) ∧
  decode 0x40_0000000000000213#72 = .ok (.peek .digest 19#8) ∧
  decode 0x40_0000000000000305#72 = .ok (.peek .digits 5#8)

/-! ## The step -/

/-- R90, over the model's list of host moves (log 1) and its `cp` (log 2): the word presented first is accepted and the
step is the execution of the command it decodes to. -/
def Obligations.StepRunsTheDecodedCommand : Prop :=
  ∀ (s : State) (w : CmdWord) (rest : List HostMove), s.pending = .command w :: rest →
    step s = execWord w { s with pending := rest, cp := s.cp + 1 } ∧
    ∀ i : Instr, decode w = .ok i → step s = exec i { s with pending := rest, cp := s.cp + 1 }

/-- R90, R94: the step function of a word and a state, its three lines in their order, with every precondition written
out. (That the third line always has a next state is `EveryStepHasANextState`, but for the refusal of log 4.) -/
def Obligations.StepFunctionOfTheSpec : Prop :=
  ∀ (w : CmdWord) (s : State),
    (∀ e, decode w = .error e → execWord w s = .next { s with status := { s.status with ill := true } }) ∧
    (∀ i, decode w = .ok i →
      let admitted := match i with
        | .nop | .clr | .kinit | .tload _ | .cload _ | .peek _ _ => true
        | .kchar _ | .kend => s.status.ka
        | .mac | .gen => s.status.kv && s.status.cv
        | .trunc => s.status.dv
      (admitted = false → execWord w s = .next { s with status := { s.status with sqe := true } }) ∧
      (admitted = true → execWord w s = exec i s))

/-- R220, R215, over the model's list of host moves (logs 1, 3): a reset between commands leaves the reset state, the
host's moves to come and `cp` as they were; with no move to make the block holds its state. -/
def Obligations.ResetMovesAndIdleSteps : Prop :=
  (∀ (s : State) (rest : List HostMove), s.pending = .reset :: rest →
    step s = .next { State.reset with pending := rest, cp := s.cp }) ∧
  (∀ s : State, s.pending = [] → step s = .next s)

/-- R46 (log 2): every accepted word, legal, suppressed or illegal, advances `cp` by exactly 1, nothing else changes
it, and a step makes exactly the host's next move. -/
def Obligations.CpCountsAcceptedWords : Prop :=
  ∀ s t : State, step s = .next t →
    t.pending = s.pending.tail ∧
    t.cp = (match s.pending with
      | .command _ :: _ => s.cp + 1
      | _ => s.cp)

/-- R50: after reset, and after `CLR` from any state, every bit of the block is 0. -/
def Obligations.ResetStateIsAllZero : Prop :=
  let allZero := fun s : State =>
    s.acc = 0#12 ∧ s.nb = 0#4 ∧ s.kne = false ∧ (∀ (i : Nat) (h : i < 64), s.kblk[i] = 0#8) ∧ s.kfill = 0#7 ∧
    s.klen = 0#64 ∧ s.klong = false ∧ (∀ (i : Nat) (h : i < 5), s.h[i] = 0#32) ∧ s.ctr = 0#64 ∧
    (∀ (i : Nat) (h : i < 20), s.digest[i] = 0#8) ∧ s.offset = 0#4 ∧ s.bin = 0#31 ∧ s.code = 0#20 ∧
    (∀ (i : Nat) (h : i < 6), s.digits[i] = 0#8) ∧ s.rdata = 0#8 ∧ statusWord s.status = 0#8
  allZero State.reset ∧ ∀ s : State, ∃ t, exec .clr s = .next t ∧ allZero t

/-- R91, R231, less the refusal of R117 (log 4): every step has a next state, but that of a `KCHAR` that completes a
byte at the key length limit. -/
def Obligations.EveryStepHasANextState : Prop :=
  ∀ s : State,
    (∃ t, step s = .next t) ∨
    (step s = .refused .keyLengthLimit ∧
      ∃ w rest ch v, s.pending = .command w :: rest ∧ decode w = .ok (.kchar ch) ∧ charClass ch = .symbol v ∧
        s.status.ka = true ∧ s.status.isf = false ∧ 2 ^ 61 ≤ s.klen.toNat + 1)

/-- R117 (log 4): with `NB` in its range (R23), `KCHAR` is refused exactly when a symbol completes a byte that takes
`KLEN` to 2^61 or beyond. -/
def Obligations.KcharRefusedAtKeyLimit : Prop :=
  ∀ (ch : Byte) (s : State), s.nb.toNat ≤ 7 →
    (exec (.kchar ch) s = .refused .keyLengthLimit ↔
      s.status.ka = true ∧ s.status.isf = false ∧ (∃ v, charClass ch = .symbol v) ∧ 3 ≤ s.nb.toNat ∧
        2 ^ 61 ≤ s.klen.toNat + 1)

/-! ## Errors and flags -/

/-- R203: a legal command whose precondition is false is suppressed: the next state is the previous state except
`SQE = 1`. -/
def Obligations.SuppressedCommandsSetSqeOnly : Prop :=
  ∀ (s : State) (i : Instr),
    (((∃ ch, i = .kchar ch) ∨ i = .kend) ∧ s.status.ka = false ∨
      (i = .mac ∨ i = .gen) ∧ (s.status.kv = false ∨ s.status.cv = false) ∨
      i = .trunc ∧ s.status.dv = false) →
    exec i s = .next { s with status := { s.status with sqe := true } }

/-- R206: one command raises at most one error, in the order decode, precondition, data; flags already set play no
part. -/
def Obligations.AtMostOneErrorPerCommand : Prop :=
  ∀ (s t : State) (w : CmdWord), execWord w s = .next t →
    (∀ e, decode w = .error e →
      t.status.ill = true ∧ t.status.sqe = s.status.sqe ∧ t.status.isf = s.status.isf) ∧
    (∀ i, decode w = .ok i → precond i s = false →
      t.status.sqe = true ∧ t.status.ill = s.status.ill ∧ t.status.isf = s.status.isf) ∧
    (∀ i, decode w = .ok i → precond i s = true →
      if i = .clr then t.status.sqe = false ∧ t.status.ill = false ∧ t.status.isf = false
      else t.status.sqe = s.status.sqe ∧ t.status.ill = s.status.ill ∧
        (s.status.isf = false → t.status.isf = true →
          i = .kend ∧ s.kne = false ∨ ∃ ch, i = .kchar ch ∧ charClass ch = .invalid))

/-- R41, R208: the error flags are sticky: only `KINIT` and `CLR` clear `ISF`, only `CLR` clears `SQE` and `ILL`. -/
def Obligations.ErrorFlagsAreSticky : Prop :=
  ∀ (i : Instr) (s t : State), exec i s = .next t →
    (s.status.isf = true → (t.status.isf = false ↔ i = .kinit ∨ i = .clr)) ∧
    (s.status.sqe = true → (t.status.sqe = false ↔ i = .clr)) ∧
    (s.status.ill = true → (t.status.ill = false ↔ i = .clr))

/-- R38: which commands set and which clear each of the eight flags. -/
def Obligations.FlagsAreWrittenByTheirCommands : Prop :=
  ∀ (i : Instr) (s t : State), i.WellFormed → exec i s = .next t →
    (s.status.kv = false → t.status.kv = true → i = .kend) ∧
    (s.status.kv = true → t.status.kv = false → i = .kinit ∨ i = .clr) ∧
    (s.status.cv = false → t.status.cv = true → (∃ x, i = .tload x ∨ i = .cload x)) ∧
    (s.status.cv = true → t.status.cv = false → i = .clr) ∧
    (s.status.dv = false → t.status.dv = true → i = .mac ∨ i = .gen) ∧
    (s.status.dv = true → t.status.dv = false → i = .kinit ∨ (∃ x, i = .tload x ∨ i = .cload x) ∨ i = .clr) ∧
    (s.status.ov = false → t.status.ov = true → i = .trunc ∨ i = .gen) ∧
    (s.status.ov = true → t.status.ov = false →
      i = .kinit ∨ (∃ x, i = .tload x ∨ i = .cload x) ∨ i = .mac ∨ i = .clr) ∧
    (s.status.ka = false → t.status.ka = true → i = .kinit) ∧
    (s.status.ka = true → t.status.ka = false → i = .kend ∨ i = .clr) ∧
    (s.status.isf = false → t.status.isf = true → (∃ ch, i = .kchar ch) ∨ i = .kend) ∧
    (s.status.sqe = false → t.status.sqe = true →
      (∃ ch, i = .kchar ch) ∨ i = .kend ∨ i = .mac ∨ i = .trunc ∨ i = .gen) ∧
    t.status.ill = (s.status.ill && decide (i ≠ .clr))

/-- R52 (the spec's own inference): which command may write which register, and that no other register changes. -/
def Obligations.WriteMatrix : Prop :=
  ∀ (i : Instr) (s t : State), exec i s = .next t →
    (t.acc ≠ s.acc ∨ t.nb ≠ s.nb ∨ t.kfill ≠ s.kfill ∨ t.h ≠ s.h ∨ t.kblk ≠ s.kblk →
      i = .clr ∨ i = .kinit ∨ (∃ ch, i = .kchar ch) ∨ i = .kend) ∧
    (t.kne ≠ s.kne ∨ t.klen ≠ s.klen ∨ t.klong ≠ s.klong → i = .clr ∨ i = .kinit ∨ ∃ ch, i = .kchar ch) ∧
    (t.kblk ≠ s.kblk → i = .kend → s.klong = true) ∧
    (t.ctr ≠ s.ctr → i = .clr ∨ ∃ x, i = .tload x ∨ i = .cload x) ∧
    (t.digest ≠ s.digest →
      i = .clr ∨ i = .kinit ∨ (∃ x, i = .tload x ∨ i = .cload x) ∨ i = .mac ∨ i = .gen) ∧
    (t.offset ≠ s.offset ∨ t.bin ≠ s.bin ∨ t.code ≠ s.code ∨ t.digits ≠ s.digits →
      i = .clr ∨ i = .kinit ∨ (∃ x, i = .tload x ∨ i = .cload x) ∨ i = .mac ∨ i = .trunc ∨ i = .gen) ∧
    (t.rdata ≠ s.rdata → i = .clr ∨ ∃ sp k, i = .peek sp k) ∧
    t.pending = s.pending ∧ t.cp = s.cp

/-! ## Host commands -/

/-- R190: `NOP` changes no state, the all-zero word is `NOP`, and a `NOP` word with an operand bit set is illegal. -/
def Obligations.NopChangesNothing : Prop :=
  (∀ s : State, exec .nop s = .next s) ∧ decode 0#72 = .ok .nop ∧
  ∀ d : Word64, d ≠ 0#64 → decode (mkWord 0x00#8 d) = .error .reservedBits

/-- R191, R221: `CLR` gives the reset state bit for bit, the sticky flags included; the host's moves to come and `cp`
are no state of the block (logs 1, 2). -/
def Obligations.ClrGivesTheResetState : Prop :=
  ∀ s : State, exec .clr s = .next { State.reset with pending := s.pending, cp := s.cp }

/-- R192, R62: `PEEK` reads the byte of its space into `RDATA`, whatever the flags, and changes nothing else; a `PEEK`
word that is illegal leaves `RDATA` unchanged. -/
def Obligations.PeekReadsOneByte : Prop :=
  ∀ (s : State) (i : Byte),
    (∀ h : i.toNat < 64, exec (.peek .kblk i) s = .next { s with rdata := s.kblk[i.toNat] }) ∧
    (i.toNat < 8 →
      exec (.peek .msg i) s = .next { s with rdata := BitVec.ofNat 8 (s.ctr.toNat / 2 ^ (56 - 8 * i.toNat)) }) ∧
    (∀ h : i.toNat < 20, exec (.peek .digest i) s = .next { s with rdata := s.digest[i.toNat] }) ∧
    (∀ h : i.toNat < 6, exec (.peek .digits i) s = .next { s with rdata := s.digits[i.toNat] }) ∧
    (∀ (d : Word64) (e : DecodeError), decode (mkWord 0x40#8 d) = .error e →
      execWord (mkWord 0x40#8 d) s = .next { s with status := { s.status with ill := true } })

/-! ## B32, the secret decoder -/

/-- R102, R103: the class of every character code by its table and pseudocode. The class sizes that follow are 7, 58 and
191 codes; the sentences of R102 and R103 that count 64 and 185 contradict their own table (log 16). -/
def Obligations.CharacterClasses : Prop :=
  (∀ c : Byte, charClass c =
    if c.toNat ∈ [0x09, 0x0A, 0x0B, 0x0C, 0x0D, 0x20, 0x2D] then .strip
    else if 0x41 ≤ c.toNat ∧ c.toNat ≤ 0x5A then .symbol (BitVec.ofNat 5 (c.toNat - 0x41))
    else if 0x61 ≤ c.toNat ∧ c.toNat ≤ 0x7A then .symbol (BitVec.ofNat 5 (c.toNat - 0x61))
    else if 0x32 ≤ c.toNat ∧ c.toNat ≤ 0x37 then .symbol (BitVec.ofNat 5 (c.toNat - 0x32 + 26))
    else .invalid) ∧
  ((List.range 256).filter fun n => charClass (BitVec.ofNat 8 n) == .strip).length = 7 ∧
  ((List.range 256).filter fun n => charClass (BitVec.ofNat 8 n) == .invalid).length = 191

/-- R104: `KINIT` opens an ingest from any state: the decoder, the key, the digest and the code are zeroed, `KA` is set,
`KV`, `ISF`, `DV`, `OV` cleared, and `CTR`, `CV`, `SQE`, `ILL`, `RDATA` kept. -/
def Obligations.KinitOpensAnIngest : Prop :=
  ∀ s : State, exec .kinit s = .next
    { s with
      acc := 0#12, nb := 0#4, kne := false, kblk := Vector.replicate 64 0#8, kfill := 0#7, klen := 0#64
      klong := false, h := Vector.replicate 5 0#32, digest := Vector.replicate 20 0#8, offset := 0#4, bin := 0#31
      code := 0#20, digits := Vector.replicate 6 0#8
      status := { s.status with kv := false, dv := false, ov := false, ka := true, isf := false } }

/-- R105, R106, R115, where no byte is completed: outside an ingest the command is suppressed; an ingest that has failed
takes no character, a strip character changes nothing, an invalid one sets `ISF` and nothing else, a symbol enters the
shift register. -/
def Obligations.KcharWithoutAByte : Prop :=
  ∀ (ch : Byte) (s : State),
    (s.status.ka = false → exec (.kchar ch) s = .next { s with status := { s.status with sqe := true } }) ∧
    (s.status.ka = true → s.status.isf = true → exec (.kchar ch) s = .next s) ∧
    (s.status.ka = true → s.status.isf = false → charClass ch = .strip → exec (.kchar ch) s = .next s) ∧
    (s.status.ka = true → s.status.isf = false → charClass ch = .invalid →
      exec (.kchar ch) s = .next { s with status := { s.status with isf := true } }) ∧
    (∀ v, s.status.ka = true → s.status.isf = false → charClass ch = .symbol v →
      s.nb.toNat < 3 → s.acc.toNat < 2 ^ s.nb.toNat →
      exec (.kchar ch) s = .next
        { s with
          kne := true
          acc := BitVec.ofNat 12 (s.acc.toNat * 32 + v.toNat)
          nb := BitVec.ofNat 4 (s.nb.toNat + 5) })

/-- R106, R108, with the decoder's registers in the ranges R22, R23 and R26 give them and below the limit of R117: a
symbol that completes a byte emits the eight oldest bits, most significant first, and keeps the rest; the byte goes to
`KBLK[KFILL]`, a full block being first compressed into `H`. -/
def Obligations.KcharStoresAByte : Prop :=
  ∀ (ch : Byte) (v : BitVec 5) (s : State),
    s.status.ka = true → s.status.isf = false → charClass ch = .symbol v →
    3 ≤ s.nb.toNat → s.nb.toNat ≤ 7 → s.acc.toNat < 2 ^ s.nb.toNat → s.kfill.toNat ≤ 64 →
    s.klen.toNat + 1 < 2 ^ 61 →
    let n := s.acc.toNat * 32 + v.toNat
    let left := s.nb.toNat - 3
    let full := s.kfill.toNat = 64
    exec (.kchar ch) s = .next
      { s with
        kne := true
        acc := BitVec.ofNat 12 (n % 2 ^ left)
        nb := BitVec.ofNat 4 left
        klong := s.klong || decide full
        h := if full then sha1Compress (if s.klong then s.h else sha1Iv) s.kblk else s.h
        kblk := (if full then Vector.replicate 64 0#8 else s.kblk).setIfInBounds
          (if full then 0 else s.kfill.toNat) (BitVec.ofNat 8 (n / 2 ^ left))
        kfill := if full then 1#7 else s.kfill + 1#7
        klen := s.klen + 1#64 }

/-- R112, R111 (and R113 to R115): `KEND` closes the ingest; outside one it is suppressed: a failed one and an empty one leave `KV = 0`; a key of at most 64 bytes
is K0 as it stands; a longer key's hash is completed in one compression when at most 55 bytes are pending, else two. -/
def Obligations.KendClosesTheIngest : Prop :=
  ∀ s : State,
    (s.status.ka = false → exec .kend s = .next { s with status := { s.status with sqe := true } }) ∧
    (s.status.ka = true → s.status.isf = true → exec .kend s = .next
      { s with
        acc := 0#12, nb := 0#4, kfill := 0#7, h := Vector.replicate 5 0#32
        status := { s.status with ka := false } }) ∧
    (s.status.ka = true → s.status.isf = false → s.kne = false → exec .kend s = .next
      { s with acc := 0#12, nb := 0#4, kfill := 0#7, status := { s.status with ka := false, isf := true } }) ∧
    (s.status.ka = true → s.status.isf = false → s.kne = true → s.klong = false → exec .kend s = .next
      { s with acc := 0#12, nb := 0#4, kfill := 0#7, status := { s.status with ka := false, kv := true } }) ∧
    (s.status.ka = true → s.status.isf = false → s.kne = true → s.klong = true → 1 ≤ s.kfill.toNat → s.kfill.toNat ≤ 64 →
      let t := s.kblk.toList.take s.kfill.toNat ++ sha1Pad s.kfill.toNat s.klen.toNat
      let h1 := sha1Compress s.h (blockOf t)
      let h2 := if s.kfill.toNat ≤ 55 then h1 else sha1Compress h1 (blockOf (t.drop 64))
      exec .kend s = .next
        { s with
          acc := 0#12, nb := 0#4, kfill := 0#7, h := Vector.replicate 5 0#32
          kblk := blockOf (chainBytes h2 ++ List.replicate 44 0#8)
          status := { s.status with ka := false, kv := true } })

/-- R115 (decision D10): after an invalid character no further character of the ingest changes anything. -/
def Obligations.FailFastIgnoresTheRest : Prop :=
  ∀ (cs : List Byte) (s : State), s.status.ka = true → s.status.isf = true → feed cs s = .next s

/-- R116 (a) (the spec's own inference): a letter and its other case do the same. -/
def Obligations.LetterCaseIsIgnored : Prop :=
  ∀ (c : Byte) (s : State), 0x41 ≤ c.toNat → c.toNat ≤ 0x5A →
    exec (.kchar c) s = exec (.kchar (c + 0x20#8)) s

/-- R107, R109, R110 (the spec's own inferences), below the limit of R117: after `KINIT` and the characters of a string
without an invalid one, the decoder holds exactly the decode of the string so far. -/
def Obligations.StreamingDecodeIsTheDecode : Prop :=
  ∀ (s₀ s : State) (cs : List Byte) (vs : List (BitVec 5)),
    exec .kinit s₀ = .next s → secretSymbols cs = some vs → 5 * vs.length / 8 < 2 ^ 61 →
    ∃ t, feed cs s = .next t ∧
      t.nb.toNat = 5 * vs.length % 8 ∧
      t.acc.toNat = bitsValue ((symbolsBits vs).drop (8 * (5 * vs.length / 8))) ∧
      t.klen.toNat = 5 * vs.length / 8 ∧
      t.kne = !vs.isEmpty ∧
      (5 * vs.length / 8 ≤ 64 →
        t.klong = false ∧ t.kfill.toNat = 5 * vs.length / 8 ∧ t.h = zeroChain ∧
        t.kblk.toList = symbolsKey vs ++ List.replicate (64 - 5 * vs.length / 8) 0#8) ∧
      (64 < 5 * vs.length / 8 →
        let full := (5 * vs.length / 8 - 1) / 64
        t.klong = true ∧ t.kfill.toNat = 5 * vs.length / 8 - 64 * full ∧
        t.h = sha1Blocks full sha1Iv (symbolsKey vs) ∧
        t.kblk.toList = (symbolsKey vs).drop (64 * full) ++
          List.replicate (64 * (full + 1) - 5 * vs.length / 8) 0#8) ∧
      t = { s with
        acc := t.acc, nb := t.nb, kne := t.kne, kblk := t.kblk, kfill := t.kfill, klen := t.klen
        klong := t.klong, h := t.h }

/-- R150 (its last sentence), R112, R113: after `SECRET` of a valid secret `KBLK` is K0 of its decode, `KLEN` its length,
and `KV` is set; the counter and `RDATA` are as before. -/
def Obligations.SecretMakesItsKeyBlock : Prop :=
  ∀ (s : State) (secret key : List Byte), b32Decode secret = some key → key.length < 2 ^ 61 →
    ∃ t, runCommands (secretProgram secret) s = .next t ∧
      t.kblk.toList = keyBlock key ∧ t.klen.toNat = key.length ∧
      t.klong = decide (64 < key.length) ∧ t.kne = true ∧
      t.acc = 0#12 ∧ t.nb = 0#4 ∧ t.kfill = 0#7 ∧ t.h = zeroChain ∧
      t.ctr = s.ctr ∧ t.rdata = s.rdata ∧ t.pending = s.pending ∧ t.cp = s.cp ∧
      t.status = { s.status with kv := true, dv := false, ov := false, ka := false, isf := false }

/-- R201, R114, R115: after `SECRET` of an invalid or empty secret `ISF` is set and there is no key. -/
def Obligations.InvalidSecretMakesNoKey : Prop :=
  ∀ (s : State) (secret : List Byte), b32Decode secret = none → secret.length < 2 ^ 61 →
    ∃ t, runCommands (secretProgram secret) s = .next t ∧
      t.ctr = s.ctr ∧ t.rdata = s.rdata ∧
      t.status = { s.status with kv := false, dv := false, ov := false, ka := false, isf := true }

/-- R118 (general knowledge; the document's round-trip property): decoding the unpadded encoding of a key gives it back. -/
def Obligations.Base32RoundTrip : Prop :=
  ∀ bytes : List Byte, bytes ≠ [] → b32Decode (b32Encode bytes) = some bytes

/-! ## CTR, the counter serializer -/

/-- R132: `TLOAD` stores the floor of the time by 30, below 2^60, sets `CV` and invalidates digest and code. -/
def Obligations.TloadDividesTheTime : Prop :=
  ∀ (x : Word64) (s : State),
    exec (.tload x) s = .next
      { s with
        ctr := BitVec.ofNat 64 (x.toNat / 30), digest := Vector.replicate 20 0#8, offset := 0#4, bin := 0#31
        code := 0#20, digits := Vector.replicate 6 0#8
        status := { s.status with cv := true, dv := false, ov := false } } ∧
    x.toNat / 30 < 2 ^ 60

/-- R133: `CLOAD` stores the counter as given, with the same flags, and `TLOAD t` reaches the state of
`CLOAD (t div 30)`. -/
def Obligations.CloadStoresTheCounter : Prop :=
  ∀ (x : Word64) (s : State),
    exec (.cload x) s = .next
      { s with
        ctr := x, digest := Vector.replicate 20 0#8, offset := 0#4, bin := 0#31
        code := 0#20, digits := Vector.replicate 6 0#8
        status := { s.status with cv := true, dv := false, ov := false } } ∧
    exec (.tload x) s = exec (.cload (BitVec.ofNat 64 (x.toNat / 30))) s

/-- R134, R18: two times reach the same state exactly when they lie in the same 30-second window. -/
def Obligations.SameWindowSameState : Prop :=
  ∀ (x y : Word64) (s : State),
    (exec (.tload x) s = exec (.tload y) s ↔ x.toNat / 30 = y.toNat / 30)

/-- R131: byte `i` of `MSG` is bits `63 - 8*i` to `56 - 8*i` of `CTR`, and the inverse: `CTR` is `MSG` read in base 256,
most significant byte first. -/
def Obligations.MessageIsTheCounterBigEndian : Prop :=
  ∀ s : State,
    (∀ (i : Nat) (h : i < 8), (msgOf s)[i].toNat = s.ctr.toNat / 2 ^ (8 * (7 - i)) % 256) ∧
    s.ctr.toNat = ((msgOf s).toList.map BitVec.toNat).foldl (fun n b => 256 * n + b) 0

/-! ## MAC, the HMAC-SHA1 core -/

/-- R152 (with R153, R154): `MAC` with its precondition computes the digest by the four compressions written there, sets
`DV`, and invalidates the code; every other register keeps its value. Without the precondition it is suppressed. -/
def Obligations.MacWritesTheDigest : Prop :=
  ∀ s : State,
    (s.status.kv = false ∨ s.status.cv = false →
      exec .mac s = .next { s with status := { s.status with sqe := true } }) ∧
    (s.status.kv = true → s.status.cv = true →
      let ib := blockOf (s.kblk.toList.map fun b => b ^^^ 0x36#8)
      let ob := blockOf (s.kblk.toList.map fun b => b ^^^ 0x5C#8)
      let b2 := blockOf ((msgOf s).toList ++ [0x80#8] ++ List.replicate 53 0x00#8 ++ [0x02#8, 0x40#8])
      let inner := chainBytes (sha1Compress (sha1Compress sha1Iv ib) b2)
      let b4 := blockOf (inner ++ [0x80#8] ++ List.replicate 41 0x00#8 ++ [0x02#8, 0xA0#8])
      ∃ t, exec .mac s = .next t ∧
        t.digest.toList = chainBytes (sha1Compress (sha1Compress sha1Iv ob) b4) ∧
        t = { s with
          digest := t.digest, offset := 0#4, bin := 0#31, code := 0#20, digits := Vector.replicate 6 0#8
          status := { s.status with dv := true, ov := false } })

/-- R151, R152, R154 (the equality is the spec's own inference; SHA-1 and HMAC are its general knowledge, log 15): on
the key block of a key, `MAC` computes HMAC-SHA1 of the serialised counter. -/
def Obligations.MacIsHmacSha1 : Prop :=
  ∀ (s : State) (key : List Byte), s.kblk.toList = keyBlock key → s.status.kv = true → s.status.cv = true →
    ∃ t, exec .mac s = .next t ∧ t.digest.toList = hmacSha1 key (be64 s.ctr).toList

/-- R146: the padding completes a block, with the fewest zero bytes: it is one block's worth at most, and the last
eight bytes are the length in bits. -/
def Obligations.PaddingCompletesTheBlock : Prop :=
  ∀ r len : Nat,
    (r + (sha1Pad r len).length) % 64 = 0 ∧ 9 ≤ (sha1Pad r len).length ∧ (sha1Pad r len).length < 73 ∧
    (sha1Pad r len).head? = some 0x80#8 ∧
    (∀ i, 1 ≤ i → i + 8 < (sha1Pad r len).length → (sha1Pad r len)[i]? = some 0#8) ∧
    (sha1Pad r len).drop ((sha1Pad r len).length - 8) = (be64 (BitVec.ofNat 64 (8 * len))).toList

/-- R155 (e), R156 (the spec's own inferences): the digest depends on `KBLK` and `CTR` alone. -/
def Obligations.DigestDependsOnKeyAndCounterOnly : Prop :=
  ∀ s s' t t' : State, s.kblk = s'.kblk → s.ctr = s'.ctr →
    s.status.kv = true → s.status.cv = true → s'.status.kv = true → s'.status.cv = true →
    exec .mac s = .next t → exec .mac s' = .next t' → t.digest = t'.digest

/-- R155 (f) (the spec's own inference): different counters give different inner blocks. -/
def Obligations.DifferentCountersDifferentBlocks : Prop :=
  ∀ c c' : Word64, innerTail (be64 c) = innerTail (be64 c') → c = c'

/-! ## TRC, the truncator -/

/-- R171, R172: `TRUNC` with its precondition writes the offset, the 31-bit value, the remainder and its six decimal
digits of the digest, which are the document's steps 4 and 5, sets `OV`, and changes nothing else; without it it is
suppressed. -/
def Obligations.TruncMakesTheCode : Prop :=
  ∀ s : State,
    (s.status.dv = false → exec .trunc s = .next { s with status := { s.status with sqe := true } }) ∧
    (s.status.dv = true →
      ∃ t, exec .trunc s = .next t ∧
        t.offset.toNat = s.digest[19].toNat % 16 ∧
        t.bin.toNat = codeValue s.digest.toList ∧
        t.code.toNat = t.bin.toNat % 1000000 ∧
        (∀ (i : Nat) (h : i < 6), t.digits[i].toNat = 0x30 + t.code.toNat / 10 ^ (5 - i) % 10) ∧
        t.digits.toList = digestCode s.digest.toList ∧
        t = { s with
          offset := t.offset, bin := t.bin, code := t.code, digits := t.digits
          status := { s.status with ov := true } })

/-- R174, R175, R36: every remainder is spelled by six ASCII digits, most significant first. -/
def Obligations.DigitsSpellTheCode : Prop :=
  ∀ b : BitVec 31,
    (codeOf b).toNat = b.toNat % 1000000 ∧
    (∀ (i : Nat) (h : i < 6), 0x30 ≤ (digitsOf (codeOf b))[i].toNat ∧ (digitsOf (codeOf b))[i].toNat ≤ 0x39) ∧
    ((digitsOf (codeOf b)).toList.map fun d => d.toNat - 0x30).foldl (fun n d => 10 * n + d) 0 = (codeOf b).toNat

/-- R177: `GEN` with its precondition ends exactly where `MAC` and then `TRUNC` end, and all three run; without it it is
suppressed. -/
def Obligations.GenIsMacThenTrunc : Prop :=
  ∀ s : State,
    (s.status.kv = false ∨ s.status.cv = false →
      exec .gen s = .next { s with status := { s.status with sqe := true } }) ∧
    (s.status.kv = true → s.status.cv = true →
      ∃ m t, exec .mac s = .next m ∧ exec .trunc m = .next t ∧ exec .gen s = .next t ∧
        t.status = { s.status with dv := true, ov := true } ∧
        t.digest = m.digest ∧ t.digits.toList = digestCode m.digest.toList)

/-- R95, R155 (d) (the spec's own inferences): with the validity flags telling the truth, `MAC` again gives the same
digest and clears the code, and `TRUNC` and `GEN` again change nothing. -/
def Obligations.ReissueRecomputes : Prop :=
  ∀ s : State, s.FlagInv →
    (s.status.dv = true → ∃ t, exec .mac s = .next t ∧ t.digest = s.digest ∧ t.status.ov = false) ∧
    (s.status.ov = true → exec .trunc s = .next s ∧ exec .gen s = .next s)

/-! ## The output ports -/

/-- R45, with the flag bits of R38 and the views of R44 (the model's ports are views of one moment, log 7). -/
def Obligations.PortsShowTheRegisters : Prop :=
  ∀ s : State,
    (portStatus s).toNat = s.status.kv.toNat + 2 * s.status.cv.toNat + 4 * s.status.dv.toNat + 8 * s.status.ov.toNat +
      16 * s.status.ka.toNat + 32 * s.status.isf.toNat + 64 * s.status.sqe.toNat + 128 * s.status.ill.toNat ∧
    portCodeBin s = s.code ∧ portRdata s = s.rdata ∧
    (portCodeAscii s).toNat = (s.digits.toList.map BitVec.toNat).foldl (fun n b => 256 * n + b) 0

/-! ## Invariants -/

/-- R49 (the spec's own inference): the invariant of the block holds after reset. -/
def Obligations.InvariantAtReset : Prop := State.reset.Inv

/-- R49 (the spec's own inference): every step keeps the invariant, whatever the host's move. -/
def Obligations.StepKeepsInvariant : Prop :=
  ∀ s t : State, s.Inv → step s = .next t → t.Inv

/-- R39 (the spec's own inference): the validity chain by itself is kept by every step. -/
def Obligations.ValidityChainIsKept : Prop :=
  ∀ s t : State,
    let chain := fun f : Status =>
      (f.ov = true → f.dv = true) ∧ (f.dv = true → f.kv = true ∧ f.cv = true) ∧
      (f.kv = true → f.ka = false ∧ f.isf = false)
    chain s.status → step s = .next t → chain t.status

/-- R225: a command that changes the key or the counter leaves neither a digest nor a code, in the same step. -/
def Obligations.NoStaleResult : Prop :=
  ∀ (i : Instr) (s t : State), s.FlagInv → exec i s = .next t → t.kblk ≠ s.kblk ∨ t.ctr ≠ s.ctr →
    t.status.dv = false ∧ t.status.ov = false ∧ t.digest = Vector.replicate 20 0#8 ∧
    t.digits = Vector.replicate 6 0#8

/-! ## The function the block realises -/

/-- R17 (the spec's own inference), below the limit of R117 (log 4): from reset, with the words of `TOTP "secret", t` placed
as the host's moves (the model's own list, log 1), the run ends with
`STATUS = 0x0F` and the code of the document's `generateCode`, or, where that is InvalidSecretFormat, with `ISF` and
`SQE` set and no code. -/
def Obligations.TotpComputesGenerateCode : Prop :=
  ∀ (secret : List Byte) (x : Word64), secret.length < 2 ^ 61 →
    ∃ s : State,
      core.run (secret.length + 4) { State.reset with pending := movesOf (totpProgram secret x) } = .next s ∧
      match generateCode secret x with
      | some code => statusWord s.status = 0x0F#8 ∧ s.digits.toList = code
      | none => s.status.isf = true ∧ s.status.sqe = true ∧ s.status.ov = false ∧ s.digits = Vector.replicate 6 0#8

/-- R216, R202 (the spec's own inferences), below the limit of R117: from any state with no sequence or illegal-command
flag, the host's reading after `TOTP "secret", t` is the document's result. -/
def Obligations.HostReadsTheResult : Prop :=
  ∀ (s : State) (secret : List Byte) (x : Word64),
    s.status.sqe = false → s.status.ill = false → secret.length < 2 ^ 61 →
    ∃ t, runCommands (totpProgram secret x) s = .next t ∧
      match generateCode secret x with
      | some code => hostReading t = .ok (portCodeAscii t) ∧ t.digits.toList = code
      | none => hostReading t = .invalidSecretFormat ∧ portStatus t = 0x62#8

/-- R226: a loaded key is reused for a new time: `TLOAD t; GEN` gives the code of that key and time. -/
def Obligations.KeyIsReusedForANewTime : Prop :=
  ∀ (s : State) (key : List Byte) (x : Word64), s.status.kv = true → s.kblk.toList = keyBlock key →
    ∃ t, runCommands [.tload x, .gen] s = .next t ∧
      t.digits.toList = digestCode (hmacSha1 key (be64 (BitVec.ofNat 64 (x.toNat / 30))).toList) ∧
      t.kblk = s.kblk ∧ t.status.kv = true ∧ t.status.ov = true

/-- R88, R89 (the text form; log 13): every line the assembler accepts gives commands that have a word. -/
def Obligations.AssembledCommandsHaveWords : Prop :=
  ∀ (line : List Char) (is : List Instr), assemble line = some is → ∀ i ∈ is, i.WellFormed
end

