-- ==== Sys2Proof/Laws/Config.lean ====
section
/-! SUPPORT. The named constants at their values, for goals that need a number (00_scope.md R7, R9). `omega` does not look
into `Config.blockLen` and its like: cite a bound of this file, or let `simp` put the numbers in first. -/

namespace Sys2Proof

/-- A symbol is below 2^5. -/
theorem Symbol.toNat_lt (v : Symbol) : v.toNat < 32 := v.isLt

/-- A counter is below 2^64. -/
theorem Counter.toNat_lt (c : Counter) : c.toNat < 2 ^ 64 := c.isLt

/-- A command word is below 2^72. -/
theorem CmdWord.toNat_lt (w : CmdWord) : w.toNat < 2 ^ 72 := w.isLt

/-- The bytes of a block are 64. -/
theorem Block.length_toList (b : Block) : b.toList.length = 64 := Vector.length_toList

/-- The bytes of a digest are 20. -/
theorem Digest.length_toList (d : Digest) : d.toList.length = 20 := Vector.length_toList

/-- The bytes of a message are 8. -/
theorem Msg.length_toList (m : Msg) : m.toList.length = 8 := Vector.length_toList

/-- The characters of a code are 6. -/
theorem Digits.length_toList (d : Digits) : d.toList.length = 6 := Vector.length_toList

namespace Machine

/-- `ACC` is a register of 12 bits (10_state.md R22). -/
theorem State.acc_lt (s : State) : s.acc.toNat < 2 ^ 12 := s.acc.isLt

/-- `KLEN` is a register of 64 bits (10_state.md R27). -/
theorem State.klen_lt (s : State) : s.klen.toNat < 2 ^ 64 := s.klen.isLt

/-- `CTR` is a register of 64 bits (10_state.md R30). -/
theorem State.ctr_lt (s : State) : s.ctr.toNat < 2 ^ 64 := s.ctr.isLt

@[simp] theorem hashIv_hash : hashIv Config.hash = sha1Iv := rfl

@[simp] theorem hashCompress_hash : hashCompress Config.hash = sha1Compress := rfl

@[simp] theorem hashBytes_hash : hashBytes Config.hash = sha1 := rfl

end Machine

end Sys2Proof
end

