-- ==== Sys2Proof/Laws/State.lean ====
section
/-! SUPPORT. What each update of the state leaves in each register, one lemma per field per update, so that no later
proof unfolds a record update. -/

namespace Sys2Proof.Machine

@[simp] theorem setKv_acc (b : Bool) (s : State) : (setKv b s).acc = s.acc := rfl
@[simp] theorem setKv_nb (b : Bool) (s : State) : (setKv b s).nb = s.nb := rfl
@[simp] theorem setKv_kne (b : Bool) (s : State) : (setKv b s).kne = s.kne := rfl
@[simp] theorem setKv_kblk (b : Bool) (s : State) : (setKv b s).kblk = s.kblk := rfl
@[simp] theorem setKv_kfill (b : Bool) (s : State) : (setKv b s).kfill = s.kfill := rfl
@[simp] theorem setKv_klen (b : Bool) (s : State) : (setKv b s).klen = s.klen := rfl
@[simp] theorem setKv_klong (b : Bool) (s : State) : (setKv b s).klong = s.klong := rfl
@[simp] theorem setKv_h (b : Bool) (s : State) : (setKv b s).h = s.h := rfl
@[simp] theorem setKv_ctr (b : Bool) (s : State) : (setKv b s).ctr = s.ctr := rfl
@[simp] theorem setKv_digest (b : Bool) (s : State) : (setKv b s).digest = s.digest := rfl
@[simp] theorem setKv_offset (b : Bool) (s : State) : (setKv b s).offset = s.offset := rfl
@[simp] theorem setKv_bin (b : Bool) (s : State) : (setKv b s).bin = s.bin := rfl
@[simp] theorem setKv_code (b : Bool) (s : State) : (setKv b s).code = s.code := rfl
@[simp] theorem setKv_digits (b : Bool) (s : State) : (setKv b s).digits = s.digits := rfl
@[simp] theorem setKv_rdata (b : Bool) (s : State) : (setKv b s).rdata = s.rdata := rfl
@[simp] theorem setKv_status (b : Bool) (s : State) : (setKv b s).status = { s.status with kv := b } := rfl
@[simp] theorem setKv_pending (b : Bool) (s : State) : (setKv b s).pending = s.pending := rfl
@[simp] theorem setKv_cp (b : Bool) (s : State) : (setKv b s).cp = s.cp := rfl

@[simp] theorem setCv_acc (b : Bool) (s : State) : (setCv b s).acc = s.acc := rfl
@[simp] theorem setCv_nb (b : Bool) (s : State) : (setCv b s).nb = s.nb := rfl
@[simp] theorem setCv_kne (b : Bool) (s : State) : (setCv b s).kne = s.kne := rfl
@[simp] theorem setCv_kblk (b : Bool) (s : State) : (setCv b s).kblk = s.kblk := rfl
@[simp] theorem setCv_kfill (b : Bool) (s : State) : (setCv b s).kfill = s.kfill := rfl
@[simp] theorem setCv_klen (b : Bool) (s : State) : (setCv b s).klen = s.klen := rfl
@[simp] theorem setCv_klong (b : Bool) (s : State) : (setCv b s).klong = s.klong := rfl
@[simp] theorem setCv_h (b : Bool) (s : State) : (setCv b s).h = s.h := rfl
@[simp] theorem setCv_ctr (b : Bool) (s : State) : (setCv b s).ctr = s.ctr := rfl
@[simp] theorem setCv_digest (b : Bool) (s : State) : (setCv b s).digest = s.digest := rfl
@[simp] theorem setCv_offset (b : Bool) (s : State) : (setCv b s).offset = s.offset := rfl
@[simp] theorem setCv_bin (b : Bool) (s : State) : (setCv b s).bin = s.bin := rfl
@[simp] theorem setCv_code (b : Bool) (s : State) : (setCv b s).code = s.code := rfl
@[simp] theorem setCv_digits (b : Bool) (s : State) : (setCv b s).digits = s.digits := rfl
@[simp] theorem setCv_rdata (b : Bool) (s : State) : (setCv b s).rdata = s.rdata := rfl
@[simp] theorem setCv_status (b : Bool) (s : State) : (setCv b s).status = { s.status with cv := b } := rfl
@[simp] theorem setCv_pending (b : Bool) (s : State) : (setCv b s).pending = s.pending := rfl
@[simp] theorem setCv_cp (b : Bool) (s : State) : (setCv b s).cp = s.cp := rfl

@[simp] theorem setDv_acc (b : Bool) (s : State) : (setDv b s).acc = s.acc := rfl
@[simp] theorem setDv_nb (b : Bool) (s : State) : (setDv b s).nb = s.nb := rfl
@[simp] theorem setDv_kne (b : Bool) (s : State) : (setDv b s).kne = s.kne := rfl
@[simp] theorem setDv_kblk (b : Bool) (s : State) : (setDv b s).kblk = s.kblk := rfl
@[simp] theorem setDv_kfill (b : Bool) (s : State) : (setDv b s).kfill = s.kfill := rfl
@[simp] theorem setDv_klen (b : Bool) (s : State) : (setDv b s).klen = s.klen := rfl
@[simp] theorem setDv_klong (b : Bool) (s : State) : (setDv b s).klong = s.klong := rfl
@[simp] theorem setDv_h (b : Bool) (s : State) : (setDv b s).h = s.h := rfl
@[simp] theorem setDv_ctr (b : Bool) (s : State) : (setDv b s).ctr = s.ctr := rfl
@[simp] theorem setDv_digest (b : Bool) (s : State) : (setDv b s).digest = s.digest := rfl
@[simp] theorem setDv_offset (b : Bool) (s : State) : (setDv b s).offset = s.offset := rfl
@[simp] theorem setDv_bin (b : Bool) (s : State) : (setDv b s).bin = s.bin := rfl
@[simp] theorem setDv_code (b : Bool) (s : State) : (setDv b s).code = s.code := rfl
@[simp] theorem setDv_digits (b : Bool) (s : State) : (setDv b s).digits = s.digits := rfl
@[simp] theorem setDv_rdata (b : Bool) (s : State) : (setDv b s).rdata = s.rdata := rfl
@[simp] theorem setDv_status (b : Bool) (s : State) : (setDv b s).status = { s.status with dv := b } := rfl
@[simp] theorem setDv_pending (b : Bool) (s : State) : (setDv b s).pending = s.pending := rfl
@[simp] theorem setDv_cp (b : Bool) (s : State) : (setDv b s).cp = s.cp := rfl

@[simp] theorem setOv_acc (b : Bool) (s : State) : (setOv b s).acc = s.acc := rfl
@[simp] theorem setOv_nb (b : Bool) (s : State) : (setOv b s).nb = s.nb := rfl
@[simp] theorem setOv_kne (b : Bool) (s : State) : (setOv b s).kne = s.kne := rfl
@[simp] theorem setOv_kblk (b : Bool) (s : State) : (setOv b s).kblk = s.kblk := rfl
@[simp] theorem setOv_kfill (b : Bool) (s : State) : (setOv b s).kfill = s.kfill := rfl
@[simp] theorem setOv_klen (b : Bool) (s : State) : (setOv b s).klen = s.klen := rfl
@[simp] theorem setOv_klong (b : Bool) (s : State) : (setOv b s).klong = s.klong := rfl
@[simp] theorem setOv_h (b : Bool) (s : State) : (setOv b s).h = s.h := rfl
@[simp] theorem setOv_ctr (b : Bool) (s : State) : (setOv b s).ctr = s.ctr := rfl
@[simp] theorem setOv_digest (b : Bool) (s : State) : (setOv b s).digest = s.digest := rfl
@[simp] theorem setOv_offset (b : Bool) (s : State) : (setOv b s).offset = s.offset := rfl
@[simp] theorem setOv_bin (b : Bool) (s : State) : (setOv b s).bin = s.bin := rfl
@[simp] theorem setOv_code (b : Bool) (s : State) : (setOv b s).code = s.code := rfl
@[simp] theorem setOv_digits (b : Bool) (s : State) : (setOv b s).digits = s.digits := rfl
@[simp] theorem setOv_rdata (b : Bool) (s : State) : (setOv b s).rdata = s.rdata := rfl
@[simp] theorem setOv_status (b : Bool) (s : State) : (setOv b s).status = { s.status with ov := b } := rfl
@[simp] theorem setOv_pending (b : Bool) (s : State) : (setOv b s).pending = s.pending := rfl
@[simp] theorem setOv_cp (b : Bool) (s : State) : (setOv b s).cp = s.cp := rfl

@[simp] theorem setKa_acc (b : Bool) (s : State) : (setKa b s).acc = s.acc := rfl
@[simp] theorem setKa_nb (b : Bool) (s : State) : (setKa b s).nb = s.nb := rfl
@[simp] theorem setKa_kne (b : Bool) (s : State) : (setKa b s).kne = s.kne := rfl
@[simp] theorem setKa_kblk (b : Bool) (s : State) : (setKa b s).kblk = s.kblk := rfl
@[simp] theorem setKa_kfill (b : Bool) (s : State) : (setKa b s).kfill = s.kfill := rfl
@[simp] theorem setKa_klen (b : Bool) (s : State) : (setKa b s).klen = s.klen := rfl
@[simp] theorem setKa_klong (b : Bool) (s : State) : (setKa b s).klong = s.klong := rfl
@[simp] theorem setKa_h (b : Bool) (s : State) : (setKa b s).h = s.h := rfl
@[simp] theorem setKa_ctr (b : Bool) (s : State) : (setKa b s).ctr = s.ctr := rfl
@[simp] theorem setKa_digest (b : Bool) (s : State) : (setKa b s).digest = s.digest := rfl
@[simp] theorem setKa_offset (b : Bool) (s : State) : (setKa b s).offset = s.offset := rfl
@[simp] theorem setKa_bin (b : Bool) (s : State) : (setKa b s).bin = s.bin := rfl
@[simp] theorem setKa_code (b : Bool) (s : State) : (setKa b s).code = s.code := rfl
@[simp] theorem setKa_digits (b : Bool) (s : State) : (setKa b s).digits = s.digits := rfl
@[simp] theorem setKa_rdata (b : Bool) (s : State) : (setKa b s).rdata = s.rdata := rfl
@[simp] theorem setKa_status (b : Bool) (s : State) : (setKa b s).status = { s.status with ka := b } := rfl
@[simp] theorem setKa_pending (b : Bool) (s : State) : (setKa b s).pending = s.pending := rfl
@[simp] theorem setKa_cp (b : Bool) (s : State) : (setKa b s).cp = s.cp := rfl

@[simp] theorem setIsf_acc (b : Bool) (s : State) : (setIsf b s).acc = s.acc := rfl
@[simp] theorem setIsf_nb (b : Bool) (s : State) : (setIsf b s).nb = s.nb := rfl
@[simp] theorem setIsf_kne (b : Bool) (s : State) : (setIsf b s).kne = s.kne := rfl
@[simp] theorem setIsf_kblk (b : Bool) (s : State) : (setIsf b s).kblk = s.kblk := rfl
@[simp] theorem setIsf_kfill (b : Bool) (s : State) : (setIsf b s).kfill = s.kfill := rfl
@[simp] theorem setIsf_klen (b : Bool) (s : State) : (setIsf b s).klen = s.klen := rfl
@[simp] theorem setIsf_klong (b : Bool) (s : State) : (setIsf b s).klong = s.klong := rfl
@[simp] theorem setIsf_h (b : Bool) (s : State) : (setIsf b s).h = s.h := rfl
@[simp] theorem setIsf_ctr (b : Bool) (s : State) : (setIsf b s).ctr = s.ctr := rfl
@[simp] theorem setIsf_digest (b : Bool) (s : State) : (setIsf b s).digest = s.digest := rfl
@[simp] theorem setIsf_offset (b : Bool) (s : State) : (setIsf b s).offset = s.offset := rfl
@[simp] theorem setIsf_bin (b : Bool) (s : State) : (setIsf b s).bin = s.bin := rfl
@[simp] theorem setIsf_code (b : Bool) (s : State) : (setIsf b s).code = s.code := rfl
@[simp] theorem setIsf_digits (b : Bool) (s : State) : (setIsf b s).digits = s.digits := rfl
@[simp] theorem setIsf_rdata (b : Bool) (s : State) : (setIsf b s).rdata = s.rdata := rfl
@[simp] theorem setIsf_status (b : Bool) (s : State) : (setIsf b s).status = { s.status with isf := b } := rfl
@[simp] theorem setIsf_pending (b : Bool) (s : State) : (setIsf b s).pending = s.pending := rfl
@[simp] theorem setIsf_cp (b : Bool) (s : State) : (setIsf b s).cp = s.cp := rfl

@[simp] theorem setSqe_acc (b : Bool) (s : State) : (setSqe b s).acc = s.acc := rfl
@[simp] theorem setSqe_nb (b : Bool) (s : State) : (setSqe b s).nb = s.nb := rfl
@[simp] theorem setSqe_kne (b : Bool) (s : State) : (setSqe b s).kne = s.kne := rfl
@[simp] theorem setSqe_kblk (b : Bool) (s : State) : (setSqe b s).kblk = s.kblk := rfl
@[simp] theorem setSqe_kfill (b : Bool) (s : State) : (setSqe b s).kfill = s.kfill := rfl
@[simp] theorem setSqe_klen (b : Bool) (s : State) : (setSqe b s).klen = s.klen := rfl
@[simp] theorem setSqe_klong (b : Bool) (s : State) : (setSqe b s).klong = s.klong := rfl
@[simp] theorem setSqe_h (b : Bool) (s : State) : (setSqe b s).h = s.h := rfl
@[simp] theorem setSqe_ctr (b : Bool) (s : State) : (setSqe b s).ctr = s.ctr := rfl
@[simp] theorem setSqe_digest (b : Bool) (s : State) : (setSqe b s).digest = s.digest := rfl
@[simp] theorem setSqe_offset (b : Bool) (s : State) : (setSqe b s).offset = s.offset := rfl
@[simp] theorem setSqe_bin (b : Bool) (s : State) : (setSqe b s).bin = s.bin := rfl
@[simp] theorem setSqe_code (b : Bool) (s : State) : (setSqe b s).code = s.code := rfl
@[simp] theorem setSqe_digits (b : Bool) (s : State) : (setSqe b s).digits = s.digits := rfl
@[simp] theorem setSqe_rdata (b : Bool) (s : State) : (setSqe b s).rdata = s.rdata := rfl
@[simp] theorem setSqe_status (b : Bool) (s : State) : (setSqe b s).status = { s.status with sqe := b } := rfl
@[simp] theorem setSqe_pending (b : Bool) (s : State) : (setSqe b s).pending = s.pending := rfl
@[simp] theorem setSqe_cp (b : Bool) (s : State) : (setSqe b s).cp = s.cp := rfl

@[simp] theorem setIll_acc (b : Bool) (s : State) : (setIll b s).acc = s.acc := rfl
@[simp] theorem setIll_nb (b : Bool) (s : State) : (setIll b s).nb = s.nb := rfl
@[simp] theorem setIll_kne (b : Bool) (s : State) : (setIll b s).kne = s.kne := rfl
@[simp] theorem setIll_kblk (b : Bool) (s : State) : (setIll b s).kblk = s.kblk := rfl
@[simp] theorem setIll_kfill (b : Bool) (s : State) : (setIll b s).kfill = s.kfill := rfl
@[simp] theorem setIll_klen (b : Bool) (s : State) : (setIll b s).klen = s.klen := rfl
@[simp] theorem setIll_klong (b : Bool) (s : State) : (setIll b s).klong = s.klong := rfl
@[simp] theorem setIll_h (b : Bool) (s : State) : (setIll b s).h = s.h := rfl
@[simp] theorem setIll_ctr (b : Bool) (s : State) : (setIll b s).ctr = s.ctr := rfl
@[simp] theorem setIll_digest (b : Bool) (s : State) : (setIll b s).digest = s.digest := rfl
@[simp] theorem setIll_offset (b : Bool) (s : State) : (setIll b s).offset = s.offset := rfl
@[simp] theorem setIll_bin (b : Bool) (s : State) : (setIll b s).bin = s.bin := rfl
@[simp] theorem setIll_code (b : Bool) (s : State) : (setIll b s).code = s.code := rfl
@[simp] theorem setIll_digits (b : Bool) (s : State) : (setIll b s).digits = s.digits := rfl
@[simp] theorem setIll_rdata (b : Bool) (s : State) : (setIll b s).rdata = s.rdata := rfl
@[simp] theorem setIll_status (b : Bool) (s : State) : (setIll b s).status = { s.status with ill := b } := rfl
@[simp] theorem setIll_pending (b : Bool) (s : State) : (setIll b s).pending = s.pending := rfl
@[simp] theorem setIll_cp (b : Bool) (s : State) : (setIll b s).cp = s.cp := rfl

@[simp] theorem invalCode_acc (s : State) : (invalCode s).acc = s.acc := rfl
@[simp] theorem invalCode_nb (s : State) : (invalCode s).nb = s.nb := rfl
@[simp] theorem invalCode_kne (s : State) : (invalCode s).kne = s.kne := rfl
@[simp] theorem invalCode_kblk (s : State) : (invalCode s).kblk = s.kblk := rfl
@[simp] theorem invalCode_kfill (s : State) : (invalCode s).kfill = s.kfill := rfl
@[simp] theorem invalCode_klen (s : State) : (invalCode s).klen = s.klen := rfl
@[simp] theorem invalCode_klong (s : State) : (invalCode s).klong = s.klong := rfl
@[simp] theorem invalCode_h (s : State) : (invalCode s).h = s.h := rfl
@[simp] theorem invalCode_ctr (s : State) : (invalCode s).ctr = s.ctr := rfl
@[simp] theorem invalCode_digest (s : State) : (invalCode s).digest = s.digest := rfl
@[simp] theorem invalCode_offset (s : State) : (invalCode s).offset = 0#4 := rfl
@[simp] theorem invalCode_bin (s : State) : (invalCode s).bin = 0#31 := rfl
@[simp] theorem invalCode_code (s : State) : (invalCode s).code = 0#20 := rfl
@[simp] theorem invalCode_digits (s : State) : (invalCode s).digits = Vector.replicate 6 0x00#8 := rfl
@[simp] theorem invalCode_rdata (s : State) : (invalCode s).rdata = s.rdata := rfl
@[simp] theorem invalCode_status (s : State) : (invalCode s).status = { s.status with ov := false } := rfl
@[simp] theorem invalCode_pending (s : State) : (invalCode s).pending = s.pending := rfl
@[simp] theorem invalCode_cp (s : State) : (invalCode s).cp = s.cp := rfl

@[simp] theorem invalDigest_acc (s : State) : (invalDigest s).acc = s.acc := rfl
@[simp] theorem invalDigest_nb (s : State) : (invalDigest s).nb = s.nb := rfl
@[simp] theorem invalDigest_kne (s : State) : (invalDigest s).kne = s.kne := rfl
@[simp] theorem invalDigest_kblk (s : State) : (invalDigest s).kblk = s.kblk := rfl
@[simp] theorem invalDigest_kfill (s : State) : (invalDigest s).kfill = s.kfill := rfl
@[simp] theorem invalDigest_klen (s : State) : (invalDigest s).klen = s.klen := rfl
@[simp] theorem invalDigest_klong (s : State) : (invalDigest s).klong = s.klong := rfl
@[simp] theorem invalDigest_h (s : State) : (invalDigest s).h = s.h := rfl
@[simp] theorem invalDigest_ctr (s : State) : (invalDigest s).ctr = s.ctr := rfl
@[simp] theorem invalDigest_digest (s : State) : (invalDigest s).digest = Vector.replicate 20 0x00#8 := rfl
@[simp] theorem invalDigest_offset (s : State) : (invalDigest s).offset = 0#4 := rfl
@[simp] theorem invalDigest_bin (s : State) : (invalDigest s).bin = 0#31 := rfl
@[simp] theorem invalDigest_code (s : State) : (invalDigest s).code = 0#20 := rfl
@[simp] theorem invalDigest_digits (s : State) : (invalDigest s).digits = Vector.replicate 6 0x00#8 := rfl
@[simp] theorem invalDigest_rdata (s : State) : (invalDigest s).rdata = s.rdata := rfl
@[simp] theorem invalDigest_status (s : State) : (invalDigest s).status = { s.status with dv := false, ov := false } := rfl
@[simp] theorem invalDigest_pending (s : State) : (invalDigest s).pending = s.pending := rfl
@[simp] theorem invalDigest_cp (s : State) : (invalDigest s).cp = s.cp := rfl

@[simp] theorem resetBlock_acc (s : State) : (resetBlock s).acc = 0#12 := rfl
@[simp] theorem resetBlock_nb (s : State) : (resetBlock s).nb = 0#4 := rfl
@[simp] theorem resetBlock_kne (s : State) : (resetBlock s).kne = false := rfl
@[simp] theorem resetBlock_kblk (s : State) : (resetBlock s).kblk = zeroBlock := rfl
@[simp] theorem resetBlock_kfill (s : State) : (resetBlock s).kfill = 0#7 := rfl
@[simp] theorem resetBlock_klen (s : State) : (resetBlock s).klen = 0#64 := rfl
@[simp] theorem resetBlock_klong (s : State) : (resetBlock s).klong = false := rfl
@[simp] theorem resetBlock_h (s : State) : (resetBlock s).h = zeroChain := rfl
@[simp] theorem resetBlock_ctr (s : State) : (resetBlock s).ctr = 0#64 := rfl
@[simp] theorem resetBlock_digest (s : State) : (resetBlock s).digest = Vector.replicate 20 0x00#8 := rfl
@[simp] theorem resetBlock_offset (s : State) : (resetBlock s).offset = 0#4 := rfl
@[simp] theorem resetBlock_bin (s : State) : (resetBlock s).bin = 0#31 := rfl
@[simp] theorem resetBlock_code (s : State) : (resetBlock s).code = 0#20 := rfl
@[simp] theorem resetBlock_digits (s : State) : (resetBlock s).digits = Vector.replicate 6 0x00#8 := rfl
@[simp] theorem resetBlock_rdata (s : State) : (resetBlock s).rdata = 0x00#8 := rfl
@[simp] theorem resetBlock_status (s : State) : (resetBlock s).status = Status.reset := rfl
@[simp] theorem resetBlock_pending (s : State) : (resetBlock s).pending = s.pending := rfl
@[simp] theorem resetBlock_cp (s : State) : (resetBlock s).cp = s.cp := rfl

@[simp] theorem takeMove_acc (s : State) : (takeMove s).acc = s.acc := rfl
@[simp] theorem takeMove_nb (s : State) : (takeMove s).nb = s.nb := rfl
@[simp] theorem takeMove_kne (s : State) : (takeMove s).kne = s.kne := rfl
@[simp] theorem takeMove_kblk (s : State) : (takeMove s).kblk = s.kblk := rfl
@[simp] theorem takeMove_kfill (s : State) : (takeMove s).kfill = s.kfill := rfl
@[simp] theorem takeMove_klen (s : State) : (takeMove s).klen = s.klen := rfl
@[simp] theorem takeMove_klong (s : State) : (takeMove s).klong = s.klong := rfl
@[simp] theorem takeMove_h (s : State) : (takeMove s).h = s.h := rfl
@[simp] theorem takeMove_ctr (s : State) : (takeMove s).ctr = s.ctr := rfl
@[simp] theorem takeMove_digest (s : State) : (takeMove s).digest = s.digest := rfl
@[simp] theorem takeMove_offset (s : State) : (takeMove s).offset = s.offset := rfl
@[simp] theorem takeMove_bin (s : State) : (takeMove s).bin = s.bin := rfl
@[simp] theorem takeMove_code (s : State) : (takeMove s).code = s.code := rfl
@[simp] theorem takeMove_digits (s : State) : (takeMove s).digits = s.digits := rfl
@[simp] theorem takeMove_rdata (s : State) : (takeMove s).rdata = s.rdata := rfl
@[simp] theorem takeMove_status (s : State) : (takeMove s).status = s.status := rfl
@[simp] theorem takeMove_pending (s : State) : (takeMove s).pending = s.pending.tail := rfl
@[simp] theorem takeMove_cp (s : State) : (takeMove s).cp = s.cp := rfl

@[simp] theorem acceptWord_acc (s : State) : (acceptWord s).acc = s.acc := rfl
@[simp] theorem acceptWord_nb (s : State) : (acceptWord s).nb = s.nb := rfl
@[simp] theorem acceptWord_kne (s : State) : (acceptWord s).kne = s.kne := rfl
@[simp] theorem acceptWord_kblk (s : State) : (acceptWord s).kblk = s.kblk := rfl
@[simp] theorem acceptWord_kfill (s : State) : (acceptWord s).kfill = s.kfill := rfl
@[simp] theorem acceptWord_klen (s : State) : (acceptWord s).klen = s.klen := rfl
@[simp] theorem acceptWord_klong (s : State) : (acceptWord s).klong = s.klong := rfl
@[simp] theorem acceptWord_h (s : State) : (acceptWord s).h = s.h := rfl
@[simp] theorem acceptWord_ctr (s : State) : (acceptWord s).ctr = s.ctr := rfl
@[simp] theorem acceptWord_digest (s : State) : (acceptWord s).digest = s.digest := rfl
@[simp] theorem acceptWord_offset (s : State) : (acceptWord s).offset = s.offset := rfl
@[simp] theorem acceptWord_bin (s : State) : (acceptWord s).bin = s.bin := rfl
@[simp] theorem acceptWord_code (s : State) : (acceptWord s).code = s.code := rfl
@[simp] theorem acceptWord_digits (s : State) : (acceptWord s).digits = s.digits := rfl
@[simp] theorem acceptWord_rdata (s : State) : (acceptWord s).rdata = s.rdata := rfl
@[simp] theorem acceptWord_status (s : State) : (acceptWord s).status = s.status := rfl
@[simp] theorem acceptWord_pending (s : State) : (acceptWord s).pending = s.pending.tail := rfl
@[simp] theorem acceptWord_cp (s : State) : (acceptWord s).cp = s.cp + 1 := rfl

@[simp] theorem presentWord_acc (w : CmdWord) (s : State) : (presentWord w s).acc = s.acc := rfl
@[simp] theorem presentWord_nb (w : CmdWord) (s : State) : (presentWord w s).nb = s.nb := rfl
@[simp] theorem presentWord_kne (w : CmdWord) (s : State) : (presentWord w s).kne = s.kne := rfl
@[simp] theorem presentWord_kblk (w : CmdWord) (s : State) : (presentWord w s).kblk = s.kblk := rfl
@[simp] theorem presentWord_kfill (w : CmdWord) (s : State) : (presentWord w s).kfill = s.kfill := rfl
@[simp] theorem presentWord_klen (w : CmdWord) (s : State) : (presentWord w s).klen = s.klen := rfl
@[simp] theorem presentWord_klong (w : CmdWord) (s : State) : (presentWord w s).klong = s.klong := rfl
@[simp] theorem presentWord_h (w : CmdWord) (s : State) : (presentWord w s).h = s.h := rfl
@[simp] theorem presentWord_ctr (w : CmdWord) (s : State) : (presentWord w s).ctr = s.ctr := rfl
@[simp] theorem presentWord_digest (w : CmdWord) (s : State) : (presentWord w s).digest = s.digest := rfl
@[simp] theorem presentWord_offset (w : CmdWord) (s : State) : (presentWord w s).offset = s.offset := rfl
@[simp] theorem presentWord_bin (w : CmdWord) (s : State) : (presentWord w s).bin = s.bin := rfl
@[simp] theorem presentWord_code (w : CmdWord) (s : State) : (presentWord w s).code = s.code := rfl
@[simp] theorem presentWord_digits (w : CmdWord) (s : State) : (presentWord w s).digits = s.digits := rfl
@[simp] theorem presentWord_rdata (w : CmdWord) (s : State) : (presentWord w s).rdata = s.rdata := rfl
@[simp] theorem presentWord_status (w : CmdWord) (s : State) : (presentWord w s).status = s.status := rfl
@[simp] theorem presentWord_pending (w : CmdWord) (s : State) : (presentWord w s).pending = .command w :: s.pending := rfl
@[simp] theorem presentWord_cp (w : CmdWord) (s : State) : (presentWord w s).cp = s.cp := rfl

@[simp] theorem keyStore_acc (b : Byte) (s : State) : (keyStore b s).acc = s.acc := rfl
@[simp] theorem keyStore_nb (b : Byte) (s : State) : (keyStore b s).nb = s.nb := rfl
@[simp] theorem keyStore_kne (b : Byte) (s : State) : (keyStore b s).kne = s.kne := rfl
@[simp] theorem keyStore_kblk (b : Byte) (s : State) : (keyStore b s).kblk = s.kblk.setIfInBounds s.kfill.toNat b := rfl
@[simp] theorem keyStore_kfill (b : Byte) (s : State) : (keyStore b s).kfill = s.kfill + 1#7 := rfl
@[simp] theorem keyStore_klen (b : Byte) (s : State) : (keyStore b s).klen = s.klen + 1#64 := rfl
@[simp] theorem keyStore_klong (b : Byte) (s : State) : (keyStore b s).klong = s.klong := rfl
@[simp] theorem keyStore_h (b : Byte) (s : State) : (keyStore b s).h = s.h := rfl
@[simp] theorem keyStore_ctr (b : Byte) (s : State) : (keyStore b s).ctr = s.ctr := rfl
@[simp] theorem keyStore_digest (b : Byte) (s : State) : (keyStore b s).digest = s.digest := rfl
@[simp] theorem keyStore_offset (b : Byte) (s : State) : (keyStore b s).offset = s.offset := rfl
@[simp] theorem keyStore_bin (b : Byte) (s : State) : (keyStore b s).bin = s.bin := rfl
@[simp] theorem keyStore_code (b : Byte) (s : State) : (keyStore b s).code = s.code := rfl
@[simp] theorem keyStore_digits (b : Byte) (s : State) : (keyStore b s).digits = s.digits := rfl
@[simp] theorem keyStore_rdata (b : Byte) (s : State) : (keyStore b s).rdata = s.rdata := rfl
@[simp] theorem keyStore_status (b : Byte) (s : State) : (keyStore b s).status = s.status := rfl
@[simp] theorem keyStore_pending (b : Byte) (s : State) : (keyStore b s).pending = s.pending := rfl
@[simp] theorem keyStore_cp (b : Byte) (s : State) : (keyStore b s).cp = s.cp := rfl

@[simp] theorem keyFinish_acc (s : State) : (keyFinish s).acc = s.acc := rfl
@[simp] theorem keyFinish_nb (s : State) : (keyFinish s).nb = s.nb := rfl
@[simp] theorem keyFinish_kne (s : State) : (keyFinish s).kne = s.kne := rfl
@[simp] theorem keyFinish_kblk (s : State) : (keyFinish s).kblk = digestBlock (chainBytes (sha1Blocks ((keyTail s).length / 64) s.h (keyTail s))) := rfl
@[simp] theorem keyFinish_kfill (s : State) : (keyFinish s).kfill = s.kfill := rfl
@[simp] theorem keyFinish_klen (s : State) : (keyFinish s).klen = s.klen := rfl
@[simp] theorem keyFinish_klong (s : State) : (keyFinish s).klong = s.klong := rfl
@[simp] theorem keyFinish_h (s : State) : (keyFinish s).h = zeroChain := rfl
@[simp] theorem keyFinish_ctr (s : State) : (keyFinish s).ctr = s.ctr := rfl
@[simp] theorem keyFinish_digest (s : State) : (keyFinish s).digest = s.digest := rfl
@[simp] theorem keyFinish_offset (s : State) : (keyFinish s).offset = s.offset := rfl
@[simp] theorem keyFinish_bin (s : State) : (keyFinish s).bin = s.bin := rfl
@[simp] theorem keyFinish_code (s : State) : (keyFinish s).code = s.code := rfl
@[simp] theorem keyFinish_digits (s : State) : (keyFinish s).digits = s.digits := rfl
@[simp] theorem keyFinish_rdata (s : State) : (keyFinish s).rdata = s.rdata := rfl
@[simp] theorem keyFinish_status (s : State) : (keyFinish s).status = s.status := rfl
@[simp] theorem keyFinish_pending (s : State) : (keyFinish s).pending = s.pending := rfl
@[simp] theorem keyFinish_cp (s : State) : (keyFinish s).cp = s.cp := rfl

end Sys2Proof.Machine
end

