-- ==== Sys2Proof/Laws/Exec.lean ====
section
/-! SUPPORT. What each shared operation and each meaning does, said once, for proofs to cite instead of unfolding it. -/

namespace Sys2Proof.Machine

@[simp] theorem loadCounter_acc (c : Word64) (s : State) : (loadCounter c s).acc = s.acc := rfl
@[simp] theorem loadCounter_nb (c : Word64) (s : State) : (loadCounter c s).nb = s.nb := rfl
@[simp] theorem loadCounter_kne (c : Word64) (s : State) : (loadCounter c s).kne = s.kne := rfl
@[simp] theorem loadCounter_kblk (c : Word64) (s : State) : (loadCounter c s).kblk = s.kblk := rfl
@[simp] theorem loadCounter_kfill (c : Word64) (s : State) : (loadCounter c s).kfill = s.kfill := rfl
@[simp] theorem loadCounter_klen (c : Word64) (s : State) : (loadCounter c s).klen = s.klen := rfl
@[simp] theorem loadCounter_klong (c : Word64) (s : State) : (loadCounter c s).klong = s.klong := rfl
@[simp] theorem loadCounter_h (c : Word64) (s : State) : (loadCounter c s).h = s.h := rfl
@[simp] theorem loadCounter_ctr (c : Word64) (s : State) : (loadCounter c s).ctr = c := rfl
@[simp] theorem loadCounter_digest (c : Word64) (s : State) : (loadCounter c s).digest = Vector.replicate 20 0x00#8 := rfl
@[simp] theorem loadCounter_offset (c : Word64) (s : State) : (loadCounter c s).offset = 0#4 := rfl
@[simp] theorem loadCounter_bin (c : Word64) (s : State) : (loadCounter c s).bin = 0#31 := rfl
@[simp] theorem loadCounter_code (c : Word64) (s : State) : (loadCounter c s).code = 0#20 := rfl
@[simp] theorem loadCounter_digits (c : Word64) (s : State) : (loadCounter c s).digits = Vector.replicate 6 0x00#8 := rfl
@[simp] theorem loadCounter_rdata (c : Word64) (s : State) : (loadCounter c s).rdata = s.rdata := rfl
@[simp] theorem loadCounter_status (c : Word64) (s : State) : (loadCounter c s).status = { s.status with cv := true, dv := false, ov := false } := rfl
@[simp] theorem loadCounter_pending (c : Word64) (s : State) : (loadCounter c s).pending = s.pending := rfl
@[simp] theorem loadCounter_cp (c : Word64) (s : State) : (loadCounter c s).cp = s.cp := rfl

@[simp] theorem macCore_acc (s : State) : (macCore s).acc = s.acc := rfl
@[simp] theorem macCore_nb (s : State) : (macCore s).nb = s.nb := rfl
@[simp] theorem macCore_kne (s : State) : (macCore s).kne = s.kne := rfl
@[simp] theorem macCore_kblk (s : State) : (macCore s).kblk = s.kblk := rfl
@[simp] theorem macCore_kfill (s : State) : (macCore s).kfill = s.kfill := rfl
@[simp] theorem macCore_klen (s : State) : (macCore s).klen = s.klen := rfl
@[simp] theorem macCore_klong (s : State) : (macCore s).klong = s.klong := rfl
@[simp] theorem macCore_h (s : State) : (macCore s).h = s.h := rfl
@[simp] theorem macCore_ctr (s : State) : (macCore s).ctr = s.ctr := rfl
@[simp] theorem macCore_digest (s : State) : (macCore s).digest = macDigest s.kblk s.ctr := rfl
@[simp] theorem macCore_offset (s : State) : (macCore s).offset = s.offset := rfl
@[simp] theorem macCore_bin (s : State) : (macCore s).bin = s.bin := rfl
@[simp] theorem macCore_code (s : State) : (macCore s).code = s.code := rfl
@[simp] theorem macCore_digits (s : State) : (macCore s).digits = s.digits := rfl
@[simp] theorem macCore_rdata (s : State) : (macCore s).rdata = s.rdata := rfl
@[simp] theorem macCore_status (s : State) : (macCore s).status = { s.status with dv := true } := rfl
@[simp] theorem macCore_pending (s : State) : (macCore s).pending = s.pending := rfl
@[simp] theorem macCore_cp (s : State) : (macCore s).cp = s.cp := rfl

@[simp] theorem truncCore_acc (s : State) : (truncCore s).acc = s.acc := rfl
@[simp] theorem truncCore_nb (s : State) : (truncCore s).nb = s.nb := rfl
@[simp] theorem truncCore_kne (s : State) : (truncCore s).kne = s.kne := rfl
@[simp] theorem truncCore_kblk (s : State) : (truncCore s).kblk = s.kblk := rfl
@[simp] theorem truncCore_kfill (s : State) : (truncCore s).kfill = s.kfill := rfl
@[simp] theorem truncCore_klen (s : State) : (truncCore s).klen = s.klen := rfl
@[simp] theorem truncCore_klong (s : State) : (truncCore s).klong = s.klong := rfl
@[simp] theorem truncCore_h (s : State) : (truncCore s).h = s.h := rfl
@[simp] theorem truncCore_ctr (s : State) : (truncCore s).ctr = s.ctr := rfl
@[simp] theorem truncCore_digest (s : State) : (truncCore s).digest = s.digest := rfl
@[simp] theorem truncCore_offset (s : State) : (truncCore s).offset = truncOffset s.digest := rfl
@[simp] theorem truncCore_bin (s : State) : (truncCore s).bin = truncBin s.digest := rfl
@[simp] theorem truncCore_code (s : State) : (truncCore s).code = codeOf (truncBin s.digest) := rfl
@[simp] theorem truncCore_digits (s : State) : (truncCore s).digits = digitsOf (codeOf (truncBin s.digest)) := rfl
@[simp] theorem truncCore_rdata (s : State) : (truncCore s).rdata = s.rdata := rfl
@[simp] theorem truncCore_status (s : State) : (truncCore s).status = { s.status with ov := true } := rfl
@[simp] theorem truncCore_pending (s : State) : (truncCore s).pending = s.pending := rfl
@[simp] theorem truncCore_cp (s : State) : (truncCore s).cp = s.cp := rfl

/-! ## Errors and preconditions -/

@[simp] theorem takeError_invalidSecretFormat (s : State) : takeError .invalidSecretFormat s = setIsf true s := rfl

@[simp] theorem takeError_sequenceError (s : State) : takeError .sequenceError s = setSqe true s := rfl

@[simp] theorem takeError_illegalCommand (s : State) : takeError .illegalCommand s = setIll true s := rfl

/-- A command whose precondition holds runs. -/
theorem guarded_of_precond {i : Instr} {s : State} (h : precond i s = true)
    (run : State → Host.Outcome State Fault Refusal) : guarded i run s = run s := by
  simp [guarded, h]

/-- A command whose precondition fails sets `SQE` and does nothing else. -/
theorem guarded_of_not_precond {i : Instr} {s : State} (h : precond i s = false)
    (run : State → Host.Outcome State Fault Refusal) : guarded i run s = .next (setSqe true s) := by
  simp [guarded, h]

/-- All a guarded command can do. -/
theorem guarded_next {i : Instr} {run : State → Host.Outcome State Fault Refusal} {s t : State}
    (h : guarded i run s = .next t) :
    (precond i s = true ∧ run s = .next t) ∨ (precond i s = false ∧ t = setSqe true s) := by
  cases hp : precond i s
  · rw [guarded_of_not_precond hp] at h
    exact .inr ⟨rfl, (Host.Outcome.next.inj h).symm⟩
  · rw [guarded_of_precond hp] at h
    exact .inl ⟨rfl, h⟩

/-! ## The key block -/

/-- Room is made only in a full block; nothing but `KBLK`, `KFILL`, `KLONG` and `H` is written. -/
theorem keyMakeRoom_room {s : State} (h : s.kfill ≠ 64#7) : keyMakeRoom s = s := by
  simp [keyMakeRoom, h]

theorem keyMakeRoom_full {s : State} (h : s.kfill = 64#7) :
    keyMakeRoom s =
      { s with
        klong := true
        h := sha1Compress (if s.klong then s.h else sha1Iv) s.kblk
        kblk := zeroBlock
        kfill := 0#7 } := by
  simp [keyMakeRoom, h]

/-- `key_push` where the block has room. -/
theorem keyPush_room (b : Byte) {s : State} (h : s.kfill ≠ 64#7) :
    keyPush b s =
      { s with
        kblk := s.kblk.setIfInBounds s.kfill.toNat b
        kfill := s.kfill + 1#7
        klen := s.klen + 1#64 } := by
  rw [keyPush, keyMakeRoom_room h, keyStore]

/-- `key_push` where the block is full. -/
theorem keyPush_full (b : Byte) {s : State} (h : s.kfill = 64#7) :
    keyPush b s =
      { s with
        klong := true
        h := sha1Compress (if s.klong then s.h else sha1Iv) s.kblk
        kblk := zeroBlock.setIfInBounds 0 b
        kfill := 1#7
        klen := s.klen + 1#64 } := by
  rw [keyPush, keyMakeRoom_full h, keyStore]
  rfl

@[simp] theorem keyPush_acc (b : Byte) (s : State) : (keyPush b s).acc = s.acc := by
  by_cases h : s.kfill = 64#7
  · rw [keyPush_full b h]
  · rw [keyPush_room b h]

@[simp] theorem keyPush_nb (b : Byte) (s : State) : (keyPush b s).nb = s.nb := by
  by_cases h : s.kfill = 64#7
  · rw [keyPush_full b h]
  · rw [keyPush_room b h]

@[simp] theorem keyPush_kne (b : Byte) (s : State) : (keyPush b s).kne = s.kne := by
  by_cases h : s.kfill = 64#7
  · rw [keyPush_full b h]
  · rw [keyPush_room b h]

@[simp] theorem keyPush_ctr (b : Byte) (s : State) : (keyPush b s).ctr = s.ctr := by
  by_cases h : s.kfill = 64#7
  · rw [keyPush_full b h]
  · rw [keyPush_room b h]

@[simp] theorem keyPush_digest (b : Byte) (s : State) : (keyPush b s).digest = s.digest := by
  by_cases h : s.kfill = 64#7
  · rw [keyPush_full b h]
  · rw [keyPush_room b h]

@[simp] theorem keyPush_offset (b : Byte) (s : State) : (keyPush b s).offset = s.offset := by
  by_cases h : s.kfill = 64#7
  · rw [keyPush_full b h]
  · rw [keyPush_room b h]

@[simp] theorem keyPush_bin (b : Byte) (s : State) : (keyPush b s).bin = s.bin := by
  by_cases h : s.kfill = 64#7
  · rw [keyPush_full b h]
  · rw [keyPush_room b h]

@[simp] theorem keyPush_code (b : Byte) (s : State) : (keyPush b s).code = s.code := by
  by_cases h : s.kfill = 64#7
  · rw [keyPush_full b h]
  · rw [keyPush_room b h]

@[simp] theorem keyPush_digits (b : Byte) (s : State) : (keyPush b s).digits = s.digits := by
  by_cases h : s.kfill = 64#7
  · rw [keyPush_full b h]
  · rw [keyPush_room b h]

@[simp] theorem keyPush_rdata (b : Byte) (s : State) : (keyPush b s).rdata = s.rdata := by
  by_cases h : s.kfill = 64#7
  · rw [keyPush_full b h]
  · rw [keyPush_room b h]

@[simp] theorem keyPush_status (b : Byte) (s : State) : (keyPush b s).status = s.status := by
  by_cases h : s.kfill = 64#7
  · rw [keyPush_full b h]
  · rw [keyPush_room b h]

@[simp] theorem keyPush_pending (b : Byte) (s : State) : (keyPush b s).pending = s.pending := by
  by_cases h : s.kfill = 64#7
  · rw [keyPush_full b h]
  · rw [keyPush_room b h]

@[simp] theorem keyPush_cp (b : Byte) (s : State) : (keyPush b s).cp = s.cp := by
  by_cases h : s.kfill = 64#7
  · rw [keyPush_full b h]
  · rw [keyPush_room b h]

@[simp] theorem keyPush_klen (b : Byte) (s : State) : (keyPush b s).klen = s.klen + 1#64 := by
  by_cases h : s.kfill = 64#7
  · rw [keyPush_full b h]
  · rw [keyPush_room b h]

/-! ## The shift register -/

/-- A symbol that completes no byte. -/
theorem shiftIn_noByte (v : BitVec 5) {s : State} (h : emitsByte s = false) :
    shiftIn v s = { s with acc := accShifted s.acc v, nb := s.nb + 5#4 } := by
  have h' : ¬ 8#4 ≤ s.nb + 5#4 := by simpa [emitsByte] using h
  simp [shiftIn, h']

/-- A symbol that completes a byte. -/
theorem shiftIn_byte (v : BitVec 5) {s : State} (h : emitsByte s = true) :
    shiftIn v s =
      keyPush ((accShifted s.acc v >>> (s.nb + 5#4 - 8#4).toNat).setWidth 8)
        { s with
          nb := s.nb + 5#4 - 8#4
          acc := accShifted s.acc v &&& ((1#12 <<< (s.nb + 5#4 - 8#4).toNat) - 1#12) } := by
  have h' : 8#4 ≤ s.nb + 5#4 := by simpa [emitsByte] using h
  simp [shiftIn, h']

@[simp] theorem shiftIn_kne (v : BitVec 5) (s : State) : (shiftIn v s).kne = s.kne := by
  cases h : emitsByte s
  · rw [shiftIn_noByte v h]
  · rw [shiftIn_byte v h, keyPush_kne]

@[simp] theorem shiftIn_ctr (v : BitVec 5) (s : State) : (shiftIn v s).ctr = s.ctr := by
  cases h : emitsByte s
  · rw [shiftIn_noByte v h]
  · rw [shiftIn_byte v h, keyPush_ctr]

@[simp] theorem shiftIn_digest (v : BitVec 5) (s : State) : (shiftIn v s).digest = s.digest := by
  cases h : emitsByte s
  · rw [shiftIn_noByte v h]
  · rw [shiftIn_byte v h, keyPush_digest]

@[simp] theorem shiftIn_offset (v : BitVec 5) (s : State) : (shiftIn v s).offset = s.offset := by
  cases h : emitsByte s
  · rw [shiftIn_noByte v h]
  · rw [shiftIn_byte v h, keyPush_offset]

@[simp] theorem shiftIn_bin (v : BitVec 5) (s : State) : (shiftIn v s).bin = s.bin := by
  cases h : emitsByte s
  · rw [shiftIn_noByte v h]
  · rw [shiftIn_byte v h, keyPush_bin]

@[simp] theorem shiftIn_code (v : BitVec 5) (s : State) : (shiftIn v s).code = s.code := by
  cases h : emitsByte s
  · rw [shiftIn_noByte v h]
  · rw [shiftIn_byte v h, keyPush_code]

@[simp] theorem shiftIn_digits (v : BitVec 5) (s : State) : (shiftIn v s).digits = s.digits := by
  cases h : emitsByte s
  · rw [shiftIn_noByte v h]
  · rw [shiftIn_byte v h, keyPush_digits]

@[simp] theorem shiftIn_rdata (v : BitVec 5) (s : State) : (shiftIn v s).rdata = s.rdata := by
  cases h : emitsByte s
  · rw [shiftIn_noByte v h]
  · rw [shiftIn_byte v h, keyPush_rdata]

@[simp] theorem shiftIn_status (v : BitVec 5) (s : State) : (shiftIn v s).status = s.status := by
  cases h : emitsByte s
  · rw [shiftIn_noByte v h]
  · rw [shiftIn_byte v h, keyPush_status]

@[simp] theorem shiftIn_pending (v : BitVec 5) (s : State) : (shiftIn v s).pending = s.pending := by
  cases h : emitsByte s
  · rw [shiftIn_noByte v h]
  · rw [shiftIn_byte v h, keyPush_pending]

@[simp] theorem shiftIn_cp (v : BitVec 5) (s : State) : (shiftIn v s).cp = s.cp := by
  cases h : emitsByte s
  · rw [shiftIn_noByte v h]
  · rw [shiftIn_byte v h, keyPush_cp]

/-! ## The meanings -/

/-- All `KCHAR` can do that leads to a next state. -/
theorem execKchar_next {ch : Byte} {s t : State} (h : execKchar ch s = .next t) :
    (s.status.ka = false ∧ t = setSqe true s) ∨
    (s.status.ka = true ∧ s.status.isf = true ∧ t = s) ∨
    (s.status.ka = true ∧ s.status.isf = false ∧ charClass ch = .strip ∧ t = s) ∨
    (s.status.ka = true ∧ s.status.isf = false ∧ charClass ch = .invalid ∧ t = setIsf true s) ∨
    (s.status.ka = true ∧ s.status.isf = false ∧ reachesKeyLimit s = false ∧
      ∃ v, charClass ch = .symbol v ∧ t = shiftIn v { s with kne := true }) := by
  rcases guarded_next h with ⟨hp, hr⟩ | ⟨hp, rfl⟩
  · have hka : s.status.ka = true := hp
    unfold kcharBody at hr
    cases hi : s.status.isf
    · rw [hi] at hr
      cases hc : charClass ch with
      | strip =>
        rw [hc] at hr
        exact .inr (.inr (.inl ⟨hka, rfl, rfl, (Host.Outcome.next.inj hr).symm⟩))
      | invalid =>
        rw [hc] at hr
        exact .inr (.inr (.inr (.inl ⟨hka, rfl, rfl, (Host.Outcome.next.inj hr).symm⟩)))
      | symbol v =>
        rw [hc] at hr
        cases hl : reachesKeyLimit s
        · simp only [hl, Bool.false_eq_true, if_false] at hr
          exact .inr (.inr (.inr (.inr ⟨hka, rfl, rfl, v, rfl, (Host.Outcome.next.inj hr).symm⟩)))
        · simp [hl] at hr
    · simp only [hi, if_true] at hr
      exact .inr (.inl ⟨hka, rfl, (Host.Outcome.next.inj hr).symm⟩)
  · exact .inl ⟨hp, rfl⟩

/-- All `KEND` can do. -/
theorem execKend_next {s t : State} (h : execKend s = .next t) :
    (s.status.ka = false ∧ t = setSqe true s) ∨ (s.status.ka = true ∧ t = kendBody s) := by
  rcases guarded_next h with ⟨hp, hr⟩ | ⟨hp, rfl⟩
  · exact .inr ⟨hp, (Host.Outcome.next.inj hr).symm⟩
  · exact .inl ⟨hp, rfl⟩

/-- All `MAC` can do. -/
theorem execMac_next {s t : State} (h : execMac s = .next t) :
    ((s.status.kv && s.status.cv) = false ∧ t = setSqe true s) ∨
    (s.status.kv = true ∧ s.status.cv = true ∧ t = macCore (invalCode s)) := by
  rcases guarded_next h with ⟨hp, hr⟩ | ⟨hp, rfl⟩
  · have := Bool.and_eq_true_iff.mp hp
    exact .inr ⟨this.1, this.2, (Host.Outcome.next.inj hr).symm⟩
  · exact .inl ⟨hp, rfl⟩

/-- All `TRUNC` can do. -/
theorem execTrunc_next {s t : State} (h : execTrunc s = .next t) :
    (s.status.dv = false ∧ t = setSqe true s) ∨ (s.status.dv = true ∧ t = truncCore s) := by
  rcases guarded_next h with ⟨hp, hr⟩ | ⟨hp, rfl⟩
  · exact .inr ⟨hp, (Host.Outcome.next.inj hr).symm⟩
  · exact .inl ⟨hp, rfl⟩

/-- All `GEN` can do. -/
theorem execGen_next {s t : State} (h : execGen s = .next t) :
    ((s.status.kv && s.status.cv) = false ∧ t = setSqe true s) ∨
    (s.status.kv = true ∧ s.status.cv = true ∧ t = truncCore (macCore (invalCode s))) := by
  rcases guarded_next h with ⟨hp, hr⟩ | ⟨hp, rfl⟩
  · have := Bool.and_eq_true_iff.mp hp
    exact .inr ⟨this.1, this.2, (Host.Outcome.next.inj hr).symm⟩
  · exact .inl ⟨hp, rfl⟩

/-- All `PEEK` can do. -/
theorem execPeek_next {space : PeekSpace} {i : Byte} {s t : State} (h : execPeek space i s = .next t) :
    (∃ b, memRead space i.toNat s = some b ∧ t = { s with rdata := b }) ∨
    (memRead space i.toNat s = none ∧ t = setIll true s) := by
  unfold execPeek at h
  cases hm : memRead space i.toNat s with
  | none =>
    rw [hm] at h
    exact .inr ⟨rfl, (Host.Outcome.next.inj h).symm⟩
  | some b =>
    rw [hm] at h
    exact .inl ⟨b, rfl, (Host.Outcome.next.inj h).symm⟩

/-- `MemRead` is total on the indices of a space and on no other (20_memory.md R61, R62). -/
theorem memRead_isSome (space : PeekSpace) (i : Nat) (s : State) :
    (memRead space i s).isSome = decide (i < space.size) := by
  cases space <;> simp only [memRead, PeekSpace.size, getElem?_def] <;> split <;> simp [*]

/-- `KINIT` as one update. -/
theorem execKinit_eq (s : State) :
    execKinit s = .next
      { s with
        acc := 0#12, nb := 0#4, kne := false, kblk := zeroBlock, kfill := 0#7, klen := 0#64, klong := false
        h := zeroChain, digest := Vector.replicate 20 0x00#8, offset := 0#4, bin := 0#31, code := 0#20
        digits := Vector.replicate 6 0x00#8
        status := { s.status with kv := false, isf := false, ka := true, dv := false, ov := false } } := rfl

/-- `KEND` of an ingest that saw an invalid character (40_base32_decoder.md R115). -/
theorem kendBody_invalid {s : State} (h : s.status.isf = true) :
    kendBody s =
      { s with
        acc := 0#12, nb := 0#4, kfill := 0#7, h := zeroChain
        status := { s.status with ka := false } } := by
  simp [kendBody, h, setKa]

/-- `KEND` of an empty secret (40_base32_decoder.md R114). -/
theorem kendBody_empty {s : State} (h : s.status.isf = false) (hk : s.kne = false) :
    kendBody s =
      { s with
        acc := 0#12, nb := 0#4, kfill := 0#7
        status := { s.status with ka := false, isf := true } } := by
  simp [kendBody, h, hk, setKa, takeError, setIsf]

/-- `KEND` of a key of at most 64 bytes (40_base32_decoder.md R109). -/
theorem kendBody_short {s : State} (h : s.status.isf = false) (hk : s.kne = true) (hl : s.klong = false) :
    kendBody s =
      { s with
        acc := 0#12, nb := 0#4, kfill := 0#7
        status := { s.status with ka := false, kv := true } } := by
  simp [kendBody, h, hk, hl, setKa, setKv]

/-- `KEND` of a longer key (40_base32_decoder.md R111). -/
theorem kendBody_long {s : State} (h : s.status.isf = false) (hk : s.kne = true) (hl : s.klong = true) :
    kendBody s =
      { s with
        acc := 0#12, nb := 0#4, kfill := 0#7, h := zeroChain
        kblk := digestBlock (chainBytes (sha1Blocks ((keyTail s).length / 64) s.h (keyTail s)))
        status := { s.status with ka := false, kv := true } } := by
  simp [kendBody, h, hk, hl, setKa, setKv, keyFinish, keyTail]

/-- All the body of `KEND` can do. -/
theorem kendBody_cases (s : State) :
    (s.status.isf = true ∧ kendBody s =
      { s with acc := 0#12, nb := 0#4, kfill := 0#7, h := zeroChain, status := { s.status with ka := false } }) ∨
    (s.status.isf = false ∧ s.kne = false ∧ kendBody s =
      { s with acc := 0#12, nb := 0#4, kfill := 0#7, status := { s.status with ka := false, isf := true } }) ∨
    (s.status.isf = false ∧ s.kne = true ∧ s.klong = false ∧ kendBody s =
      { s with acc := 0#12, nb := 0#4, kfill := 0#7, status := { s.status with ka := false, kv := true } }) ∨
    (s.status.isf = false ∧ s.kne = true ∧ s.klong = true ∧ ∃ k, kendBody s =
      { s with
        acc := 0#12, nb := 0#4, kfill := 0#7, h := zeroChain, kblk := k
        status := { s.status with ka := false, kv := true } }) := by
  by_cases hi : s.status.isf = true
  · exact .inl ⟨hi, kendBody_invalid hi⟩
  · have hi := Bool.eq_false_of_not_eq_true hi
    by_cases hk : s.kne = true
    · by_cases hl : s.klong = true
      · exact .inr (.inr (.inr ⟨hi, hk, hl, _, kendBody_long hi hk hl⟩))
      · exact .inr (.inr (.inl ⟨hi, hk, Bool.eq_false_of_not_eq_true hl,
          kendBody_short hi hk (Bool.eq_false_of_not_eq_true hl)⟩))
    · exact .inr (.inl ⟨hi, Bool.eq_false_of_not_eq_true hk, kendBody_empty hi (Bool.eq_false_of_not_eq_true hk)⟩)

/-- No command faults, and only `KCHAR` is ever refused. -/
theorem exec_outcome (i : Instr) (s : State) :
    (∃ t, exec i s = .next t) ∨ (∃ ch, i = .kchar ch ∧ exec i s = .refused .keyLengthLimit) := by
  cases i with
  | kchar ch =>
    simp only [exec, execKchar, guarded]
    split
    · unfold kcharBody
      split
      · exact .inl ⟨_, rfl⟩
      · split
        · exact .inl ⟨_, rfl⟩
        · exact .inl ⟨_, rfl⟩
        · split
          · exact .inr ⟨ch, rfl, rfl⟩
          · exact .inl ⟨_, rfl⟩
    · exact .inl ⟨_, rfl⟩
  | peek space i =>
    simp only [exec, execPeek]
    split
    · exact .inl ⟨_, rfl⟩
    · exact .inl ⟨_, rfl⟩
  | kend => simp only [exec, execKend, guarded]; split <;> exact .inl ⟨_, rfl⟩
  | mac => simp only [exec, execMac, guarded]; split <;> exact .inl ⟨_, rfl⟩
  | trunc => simp only [exec, execTrunc, guarded]; split <;> exact .inl ⟨_, rfl⟩
  | gen => simp only [exec, execGen, guarded]; split <;> exact .inl ⟨_, rfl⟩
  | nop => exact .inl ⟨_, rfl⟩
  | clr => exact .inl ⟨_, rfl⟩
  | kinit => exact .inl ⟨_, rfl⟩
  | tload t => exact .inl ⟨_, rfl⟩
  | cload c => exact .inl ⟨_, rfl⟩

/-! ## Runs -/

/-- A run of two lists is the run of the second from where the first ended. -/
theorem runCommands_append (xs ys : List Instr) (s t : State) (h : runCommands xs s = .next t) :
    runCommands (xs ++ ys) s = runCommands ys t := by
  induction xs generalizing s with
  | nil => cases h; rfl
  | cons x xs ih =>
    simp only [List.cons_append, runCommands] at h ⊢
    cases hx : exec x s with
    | next u => rw [hx] at h; exact ih u h
    | fault r => rw [hx] at h; cases h
    | refused r => rw [hx] at h; cases h

end Sys2Proof.Machine
end

