-- ==== Sys2Proof/Laws/Arith.lean ====
section
/-! SUPPORT. The arithmetic of the units: the shift register, the blocks and their padding, the engine's byte strings, the
truncator, each function's value said once. -/

namespace Sys2Proof.Machine

/-! ## The shift register -/

/-- With at most 7 live bits nothing is lost by the shift (40_base32_decoder.md R106). -/
theorem accShifted_toNat {acc : BitVec Config.accW} (v : Symbol) (h : acc.toNat < 2 ^ 7) :
    (accShifted acc v).toNat = acc.toNat * 32 + v.toNat := by
  have hv := v.toNat_lt
  simp only [accShifted, BitVec.toNat_or, BitVec.toNat_shiftLeft, BitVec.toNat_setWidth, Config.accW, Config.symW]
  rw [Nat.mod_eq_of_lt (a := v.toNat) (by omega), Nat.shiftLeft_eq, Nat.mod_eq_of_lt (by omega),
    show acc.toNat * 2 ^ 5 = 2 ^ 5 * acc.toNat by omega, ← Nat.two_pow_add_eq_or_of_lt (by omega)]
  omega

/-- The mask of the live bits. -/
theorem liveMask_toNat {k : Nat} (h : k < 12) : ((1#12 <<< k) - 1#12).toNat = 2 ^ k - 1 := by
  interval_cases k <;> rfl

/-- Keeping the live bits is a remainder. -/
theorem keepLive_toNat (x : BitVec 12) {k : Nat} (h : k < 12) :
    (x &&& ((1#12 <<< k) - 1#12)).toNat = x.toNat % 2 ^ k := by
  rw [BitVec.toNat_and, liveMask_toNat h, Nat.and_two_pow_sub_one_eq_mod]

/-- The bit count while a symbol is taken in, for a register in its range (10_state.md R23). -/
theorem nbShifted_toNat {nb : BitVec 4} (h : nb.toNat ≤ 7) : (nb + 5#4).toNat = nb.toNat + 5 := by
  simp only [BitVec.toNat_add, BitVec.toNat_ofNat]; omega

/-- A symbol completes a byte exactly when at least three bits were live. -/
theorem emitsByte_iff {s : State} (h : s.nb.toNat ≤ 7) : emitsByte s = true ↔ 3 ≤ s.nb.toNat := by
  simp only [emitsByte, decide_eq_true_eq, BitVec.le_def, nbShifted_toNat h, BitVec.toNat_ofNat]; omega

/-- The bits left after a byte. -/
theorem nbLeft_toNat {nb : BitVec 4} (h : nb.toNat ≤ 7) (h3 : 3 ≤ nb.toNat) :
    (nb + 5#4 - 8#4).toNat = nb.toNat - 3 := by
  simp only [BitVec.toNat_sub, nbShifted_toNat h, BitVec.toNat_ofNat]; omega

/-! ## Byte strings and blocks -/

@[simp] theorem be32_length (w : Word32) : (be32 w).length = 4 := rfl

@[simp] theorem chainBytes_length (h : Chain) : (chainBytes h).length = 20 := rfl

/-- A byte of a block made of a byte string: zeros after its end. -/
@[simp] theorem blockOf_getElem (bytes : List Byte) (i : Nat) (h : i < 64) :
    (blockOf bytes)[i] = bytes.getD i 0x00#8 := by
  simp [blockOf]

/-- A block is its first 64 bytes, zeros where there are fewer. -/
theorem blockOf_toList_of_length {bytes : List Byte} (h : bytes.length = 64) : (blockOf bytes).toList = bytes := by
  apply List.ext_getElem
  · simp [h]
  · intro i h1 h2
    have hi : i < 64 := by simpa using h1
    simp [h2]

/-- Every block is made of its own bytes. -/
@[simp] theorem blockOf_toList (b : Block) : blockOf b.toList = b := by
  apply Vector.ext
  intro i hi
  simp [hi]

/-- Only the first 64 bytes make a block. -/
theorem blockOf_append {xs : List Byte} (h : xs.length = 64) (ys : List Byte) : blockOf (xs ++ ys) = blockOf xs := by
  apply Vector.ext
  intro i hi
  simp [List.getElem?_append, h, hi]

@[simp] theorem chainDigest_toList (h : Chain) : (chainDigest h).toList = chainBytes h := by
  apply List.ext_getElem
  · simp
  · intro i h1 h2
    simp [chainDigest, List.getElem?_eq_getElem h2]

@[simp] theorem padKey_toList (pad : Byte) (k : Block) : (padKey pad k).toList = xorPad pad k.toList := by
  apply List.ext_getElem
  · simp [xorPad]
  · intro i h1 h2
    simp [padKey, xorPad]

@[simp] theorem xorPad_length (pad : Byte) (bytes : List Byte) : (xorPad pad bytes).length = bytes.length := by
  simp [xorPad]

/-! ## Padding and hashing -/

@[simp] theorem sha1Pad_length (r len : Nat) : (sha1Pad r len).length = (119 - r % 64) % 64 + 9 := by
  simp [sha1Pad]

@[simp] theorem sha1_length (m : List Byte) : (sha1 m).length = 20 := rfl

@[simp] theorem keyBlock_length (key : List Byte) : (keyBlock key).length = 64 := by
  unfold keyBlock
  split
  · rename_i h
    simp at h ⊢
    omega
  · simp

/-- Hashing blocks one after another. -/
theorem sha1Blocks_succ (n : Nat) (h : Chain) (bytes : List Byte) :
    sha1Blocks (n + 1) h bytes = sha1Blocks n (sha1Compress h (blockOf bytes)) (bytes.drop 64) := rfl

/-- Hashing `n` blocks and then `m` more. -/
theorem sha1Blocks_add (n m : Nat) (h : Chain) (bytes : List Byte) :
    sha1Blocks (n + m) h bytes = sha1Blocks m (sha1Blocks n h bytes) (bytes.drop (64 * n)) := by
  induction n generalizing h bytes with
  | zero => simp [sha1Blocks]
  | succ n ih =>
    rw [show n + 1 + m = (n + m) + 1 by omega, sha1Blocks_succ, ih, sha1Blocks_succ, List.drop_drop]
    congr 2
    omega

/-- The first `n` blocks do not depend on what follows them. -/
theorem sha1Blocks_append {n : Nat} {xs : List Byte} (hx : 64 * n ≤ xs.length) (h : Chain) (ys : List Byte) :
    sha1Blocks n h (xs ++ ys) = sha1Blocks n h xs := by
  induction n generalizing h xs with
  | zero => rfl
  | succ n ih =>
    have hb : blockOf (xs ++ ys) = blockOf xs := by
      apply Vector.ext
      intro i (hi : i < 64)
      have : i < xs.length := by omega
      simp [List.getElem?_append, this]
    rw [sha1Blocks_succ, sha1Blocks_succ, hb, List.drop_append_of_le_length (by omega)]
    exact ih (by simp; omega) _

/-! ## The truncator -/

theorem codeOf_toNat (b : BitVec 31) : (codeOf b).toNat = b.toNat % 1000000 := by
  simp only [codeOf, BitVec.toNat_ofNat, Config.modulus]
  omega

theorem codeOf_le (b : BitVec 31) : (codeOf b).toNat ≤ 999999 := by
  rw [codeOf_toNat]; omega

theorem truncOffset_toNat (d : Digest) : (truncOffset d).toNat = d[19].toNat % 16 := by
  simp only [truncOffset, Config.offsetMask, BitVec.toNat_setWidth, BitVec.toNat_and]
  rw [show (0x0F#8).toNat = 2 ^ 4 - 1 from rfl, Nat.and_two_pow_sub_one_eq_mod]
  omega

/-- The bytes selected from a digest (43_truncator.md R173). -/
theorem selectByte_toNat (d : Digest) (k : Fin 4) :
    (selectByte d k).toNat = (d.toList.getD (codeOffset d.toList + k.val) 0).toNat := by
  have ho : codeOffset d.toList = (truncOffset d).toNat := by rw [truncOffset_toNat]; simp [codeOffset]
  have := (truncOffset d).isLt
  rw [ho]
  simp [selectByte, show (truncOffset d).toNat + k.val < 20 by omega]

/-- Four bytes in their places of a 31-bit value, the first without its top bit, are a sum (43_truncator.md R172). -/
theorem fourBytes_toNat (a b c e : Byte) :
    (((a &&& Config.signMask).setWidth 31 <<< 24) ||| (b.setWidth 31 <<< 16) ||| (c.setWidth 31 <<< 8) |||
      e.setWidth 31 : BitVec 31).toNat =
      a.toNat % 128 * 2 ^ 24 + b.toNat * 2 ^ 16 + c.toNat * 2 ^ 8 + e.toNat := by
  have hb := b.isLt
  have hc := c.isLt
  have he := e.isLt
  have hm : (a &&& Config.signMask).toNat = a.toNat % 128 := by
    rw [BitVec.toNat_and, show Config.signMask.toNat = 2 ^ 7 - 1 from rfl, Nat.and_two_pow_sub_one_eq_mod]
  have hsmall : ∀ n k, n < 2 ^ 8 → k ≤ 16 → n % 2 ^ 31 * 2 ^ k % 2 ^ 31 = 2 ^ k * n := by
    intro n k hn hk
    have hp : n * 2 ^ k < 2 ^ 8 * 2 ^ 16 :=
      Nat.mul_lt_mul_of_lt_of_le hn (Nat.pow_le_pow_right (by omega) hk) (by positivity)
    rw [Nat.mod_eq_of_lt (a := n) (by omega), Nat.mod_eq_of_lt (by omega), Nat.mul_comm]
  have ha : a.toNat % 128 % 2 ^ 31 * 2 ^ 24 % 2 ^ 31 = 2 ^ 24 * (a.toNat % 128) := by omega
  simp only [BitVec.toNat_or, BitVec.toNat_shiftLeft, BitVec.toNat_setWidth, hm, Nat.shiftLeft_eq]
  rw [ha, hsmall _ 16 hb (by omega), hsmall _ 8 hc (by omega), Nat.mod_eq_of_lt (a := e.toNat) (by omega),
    Nat.or_assoc, Nat.or_assoc, ← Nat.two_pow_add_eq_or_of_lt (i := 8) he,
    ← Nat.two_pow_add_eq_or_of_lt (i := 16) (by omega), ← Nat.two_pow_add_eq_or_of_lt (i := 24) (by omega)]
  omega

/-- The truncated value as the document's step 4 has it (00_scope.md R16). -/
theorem truncBin_toNat (d : Digest) : (truncBin d).toNat = codeValue d.toList := by
  unfold truncBin codeValue
  rw [fourBytes_toNat, selectByte_toNat, selectByte_toNat, selectByte_toNat, selectByte_toNat]
  rfl

/-- The six digits, one by one (43_truncator.md R175). -/
theorem digitsOf_toList_digits (c : BitVec 20) :
    (digitsOf c).toList = [100000, 10000, 1000, 100, 10, 1].map fun p => BitVec.ofNat 8 (0x30 + c.toNat / p % 10) := by
  unfold digitsOf
  rfl

/-- The six digits as the document's step 5 has them (00_scope.md R16). -/
theorem digitsOf_toList (c : BitVec 20) (h : c.toNat < 1000000) : (digitsOf c).toList = sixDigits c.toNat := by
  rw [digitsOf_toList_digits]
  generalize c.toNat = n at *
  have step : ∀ m, m ≠ 0 → Nat.digits 10 m = m % 10 :: Nat.digits 10 (m / 10) :=
    fun m hm => Nat.digits_def' (by omega) (by omega)
  have zero : ∀ m k, m / k = 0 → ∀ j, m / (k * j) = 0 :=
    fun m k h0 j => by rw [← Nat.div_div_eq_div_mul, h0, Nat.zero_div]
  have e2 : n / 10 / 10 = n / 100 := by omega
  have e3 : n / 100 / 10 = n / 1000 := by omega
  have e4 : n / 1000 / 10 = n / 10000 := by omega
  have e5 : n / 10000 / 10 = n / 100000 := by omega
  have e6 : n / 100000 / 10 = 0 := by omega
  unfold sixDigits
  by_cases h0 : n = 0
  · subst h0; rfl
  rw [step n h0]
  by_cases h1 : n / 10 = 0
  · simp [h1, zero _ _ h1 10, zero _ _ h1 100, zero _ _ h1 1000, zero _ _ h1 10000, List.replicate]
  rw [step _ h1, e2]
  by_cases h2 : n / 100 = 0
  · simp [h2, zero _ _ h2 10, zero _ _ h2 100, zero _ _ h2 1000, List.replicate]
  rw [step _ h2, e3]
  by_cases h3 : n / 1000 = 0
  · simp [h3, zero _ _ h3 10, zero _ _ h3 100, List.replicate]
  rw [step _ h3, e4]
  by_cases h4 : n / 10000 = 0
  · simp [h4, zero _ _ h4 10, List.replicate]
  rw [step _ h4, e5]
  by_cases h5 : n / 100000 = 0
  · simp [h5]
  rw [step _ h5, e6]
  simp

/-! ## HMAC -/

/-- The inner digest by the engine (42_hmac_sha1.md R152). -/
theorem innerDigest_eq (k : Block) (c : Counter) :
    innerDigest k c =
      chainBytes (sha1Compress (sha1Compress sha1Iv (padKey Config.ipad k)) (innerTail (be64 c))) := by
  simp only [innerDigest, hashCompress_hash, hashIv_hash]

/-- The digest by the engine (42_hmac_sha1.md R152). -/
theorem macDigest_eq (k : Block) (c : Counter) :
    macDigest k c =
      chainDigest (sha1Compress (sha1Compress sha1Iv (padKey Config.opad k)) (outerTail (innerDigest k c))) := by
  simp only [macDigest, hashCompress_hash, hashIv_hash]

/-- HMAC by the hash of this hardware (42_hmac_sha1.md R151). -/
theorem hmacSha1_eq (key m : List Byte) :
    hmacSha1 key m =
      sha1 (xorPad Config.opad (keyBlock key) ++ sha1 (xorPad Config.ipad (keyBlock key) ++ m)) := rfl

/-- The hash of a padded key block and a message of 8 or 20 bytes is two compressions (42_hmac_sha1.md R154). -/
theorem sha1_padKey {k : Block} {pad : Byte} {m : List Byte} (h : m.length = 8 ∨ m.length = 20) :
    sha1 (xorPad pad k.toList ++ m) =
      chainBytes (sha1Compress (sha1Compress sha1Iv (padKey pad k))
        (blockOf (m ++ sha1Pad m.length (64 + m.length)))) := by
  have hk : (xorPad pad k.toList).length = 64 := by simp
  have hp : sha1Pad ((xorPad pad k.toList ++ m).length % 64) (xorPad pad k.toList ++ m).length =
      sha1Pad m.length (64 + m.length) := by
    rw [List.length_append, hk]
    unfold sha1Pad
    rw [show (64 + m.length) % 64 % 64 = m.length % 64 by omega]
  have hl : (xorPad pad k.toList ++ m ++ sha1Pad m.length (64 + m.length)).length / 64 = 2 := by simp; omega
  unfold sha1
  rw [hp]
  dsimp only
  rw [hl, sha1Blocks_succ, sha1Blocks_succ, List.append_assoc, blockOf_append hk, List.drop_append_of_le_length (by omega),
    ← padKey_toList, blockOf_toList, List.drop_eq_nil_of_le (by simp)]
  rfl

end Sys2Proof.Machine
end

