-- ==== Sys2Proof/Laws/Bits.lean ====
section
/-! SUPPORT. Bit sequences: their values, the bytes packed from them, and what one more symbol adds
(40_base32_decoder.md R100, R107). -/

namespace Sys2Proof.Machine

theorem bitsValue_foldl (bits : List Bool) (n : Nat) :
    bits.foldl (fun n b => 2 * n + b.toNat) n = n * 2 ^ bits.length + bitsValue bits := by
  induction bits generalizing n with
  | nil => simp [bitsValue]
  | cons b bits ih =>
    simp only [bitsValue, List.foldl_cons, List.length_cons] at ih ⊢
    rw [ih, ih (2 * 0 + b.toNat), pow_succ]
    ring

/-- The value of two sequences in a row. -/
theorem bitsValue_append (xs ys : List Bool) : bitsValue (xs ++ ys) = bitsValue xs * 2 ^ ys.length + bitsValue ys := by
  rw [bitsValue, List.foldl_append, bitsValue_foldl]
  rfl

theorem bitsValue_lt (bits : List Bool) : bitsValue bits < 2 ^ bits.length := by
  induction bits using List.reverseRecOn with
  | nil => simp [bitsValue]
  | append_singleton bits b ih =>
    rw [bitsValue_append]
    have : bitsValue [b] < 2 := by cases b <;> decide
    simp only [List.length_append, List.length_singleton, pow_succ]
    omega

/-- The first bits of a sequence are its value divided. -/
theorem bitsValue_take (bits : List Bool) (n : Nat) :
    bitsValue (bits.take n) = bitsValue bits / 2 ^ (bits.length - n) := by
  have he := bitsValue_append (bits.take n) (bits.drop n)
  have hl := bitsValue_lt (bits.drop n)
  rw [List.take_append_drop, List.length_drop] at he
  rw [List.length_drop] at hl
  rw [he, Nat.mul_comm, Nat.mul_add_div (Nat.two_pow_pos _), Nat.div_eq_of_lt hl, Nat.add_zero]

/-- The last bits of a sequence are its value's remainder. -/
theorem bitsValue_drop (bits : List Bool) (n : Nat) :
    bitsValue (bits.drop n) = bitsValue bits % 2 ^ (bits.length - n) := by
  have he := bitsValue_append (bits.take n) (bits.drop n)
  have hl := bitsValue_lt (bits.drop n)
  rw [List.take_append_drop, List.length_drop] at he
  rw [List.length_drop] at hl
  rw [he, Nat.mul_comm, Nat.mul_add_mod, Nat.mod_eq_of_lt hl]

@[simp] theorem symbolBits_length (v : BitVec 5) : (symbolBits v).length = 5 := rfl

@[simp] theorem byteBits_length (b : Byte) : (byteBits b).length = 8 := rfl

/-- A symbol's bits have its value. -/
theorem bitsValue_symbolBits (v : BitVec 5) : bitsValue (symbolBits v) = v.toNat := by
  revert v; decide

/-- A byte's bits have its value. -/
theorem bitsValue_byteBits (b : Byte) : bitsValue (byteBits b) = b.toNat := by
  revert b; decide +kernel

@[simp] theorem symbolsBits_length (vs : List (BitVec 5)) : (symbolsBits vs).length = 5 * vs.length := by
  induction vs with
  | nil => rfl
  | cons v vs ih => simp only [symbolsBits, List.flatMap_cons, List.length_append, List.length_cons] at ih ⊢; rw [ih, symbolBits_length]; ring

theorem symbolsBits_append (vs : List (BitVec 5)) (v : BitVec 5) : symbolsBits (vs ++ [v]) = symbolsBits vs ++ symbolBits v := by
  simp [symbolsBits]

@[simp] theorem packBytes_length (n : Nat) (bits : List Bool) : (packBytes n bits).length = n := by
  induction n generalizing bits with
  | zero => rfl
  | succ n ih => simp [packBytes, ih]

/-- The first bytes do not depend on the bits after them. -/
theorem packBytes_append (n : Nat) (xs ys : List Bool) (h : 8 * n ≤ xs.length) :
    packBytes n (xs ++ ys) = packBytes n xs := by
  induction n generalizing xs with
  | zero => rfl
  | succ n ih =>
    rw [packBytes, packBytes, List.take_append_of_le_length (by omega), List.drop_append_of_le_length (by omega),
      ih _ (by simp; omega)]

/-- One more byte is the eight bits after the others. -/
theorem packBytes_succ (n : Nat) (bits : List Bool) :
    packBytes (n + 1) bits = packBytes n bits ++ [BitVec.ofNat 8 (bitsValue ((bits.drop (8 * n)).take 8))] := by
  induction n generalizing bits with
  | zero => rfl
  | succ n ih =>
    rw [packBytes, ih, packBytes, List.cons_append, List.drop_drop, show 8 + 8 * n = 8 * (n + 1) by ring]

@[simp] theorem symbolsKey_length (vs : List (BitVec 5)) : (symbolsKey vs).length = 5 * vs.length / 8 := by
  simp [symbolsKey]

/-- A symbol after which no byte is complete leaves the key as it was. -/
theorem symbolsKey_noByte (vs : List (BitVec 5)) (v : BitVec 5) (h : 5 * vs.length % 8 < 3) :
    symbolsKey (vs ++ [v]) = symbolsKey vs := by
  rw [symbolsKey, symbolsKey, symbolsBits_append,
    show 5 * (vs ++ [v]).length / 8 = 5 * vs.length / 8 by simp; omega, packBytes_append _ _ _ (by simp; omega)]

/-- A symbol that completes a byte adds the byte made of the live bits and its own first ones. -/
theorem symbolsKey_byte (vs : List (BitVec 5)) (v : BitVec 5) (h : 3 ≤ 5 * vs.length % 8) :
    symbolsKey (vs ++ [v]) = symbolsKey vs ++
      [BitVec.ofNat 8 ((bitsValue ((symbolsBits vs).drop (8 * (5 * vs.length / 8))) * 32 + v.toNat) /
        2 ^ (5 * vs.length % 8 - 3))] := by
  have hl : ((symbolsBits vs).drop (8 * (5 * vs.length / 8)) ++ symbolBits v).length = 5 * vs.length % 8 + 5 := by
    simp; omega
  rw [symbolsKey, symbolsKey, symbolsBits_append,
    show 5 * (vs ++ [v]).length / 8 = 5 * vs.length / 8 + 1 by simp; omega, packBytes_succ,
    packBytes_append _ _ _ (by simp; omega), List.drop_append_of_le_length (by simp; omega),
    bitsValue_take, hl, bitsValue_append, bitsValue_symbolBits, symbolBits_length, show (2 : Nat) ^ 5 = 32 from rfl,
    show 5 * vs.length % 8 + 5 - 8 = 5 * vs.length % 8 - 3 by omega]

/-- The live bits after a symbol that completes no byte. -/
theorem liveBits_noByte (vs : List (BitVec 5)) (v : BitVec 5) (h : 5 * vs.length % 8 < 3) :
    bitsValue ((symbolsBits (vs ++ [v])).drop (8 * (5 * (vs ++ [v]).length / 8))) =
      bitsValue ((symbolsBits vs).drop (8 * (5 * vs.length / 8))) * 32 + v.toNat := by
  rw [symbolsBits_append, show 5 * (vs ++ [v]).length / 8 = 5 * vs.length / 8 by simp; omega,
    List.drop_append_of_le_length (by simp; omega), bitsValue_append, bitsValue_symbolBits, symbolBits_length,
    show (2 : Nat) ^ 5 = 32 from rfl]

/-- The live bits after a symbol that completes a byte. -/
theorem liveBits_byte (vs : List (BitVec 5)) (v : BitVec 5) (h : 3 ≤ 5 * vs.length % 8) :
    bitsValue ((symbolsBits (vs ++ [v])).drop (8 * (5 * (vs ++ [v]).length / 8))) =
      (bitsValue ((symbolsBits vs).drop (8 * (5 * vs.length / 8))) * 32 + v.toNat) %
        2 ^ (5 * vs.length % 8 - 3) := by
  have hl : ((symbolsBits vs).drop (8 * (5 * vs.length / 8)) ++ symbolBits v).length = 5 * vs.length % 8 + 5 := by
    simp; omega
  rw [symbolsBits_append, show 5 * (vs ++ [v]).length / 8 = 5 * vs.length / 8 + 1 by simp; omega, Nat.mul_add,
    ← List.drop_drop, List.drop_append_of_le_length (by simp; omega), bitsValue_drop, hl,
    bitsValue_append, bitsValue_symbolBits, symbolBits_length, show (2 : Nat) ^ 5 = 32 from rfl,
    show 5 * vs.length % 8 + 5 - 8 * 1 = 5 * vs.length % 8 - 3 by omega]

end Sys2Proof.Machine
end

