-- ==== Sys2Proof/Laws/Decode.lean ====
section
/-! SUPPORT. The slices of a command word, and the decoder's tables read both ways. -/

namespace Sys2Proof

/-- The bits of a word: the operand's below bit 64, the opcode's above. -/
theorem getLsbD_mkWord (op : Byte) (d : Word64) (i : Nat) :
    (mkWord op d).getLsbD i = if i < 64 then d.getLsbD i else op.getLsbD (i - 64) :=
  BitVec.getLsbD_append

@[simp] theorem cmdOp_mkWord (op : Byte) (d : Word64) : cmdOp (mkWord op d) = op := by
  apply BitVec.eq_of_getLsbD_eq
  intro i hi
  simp [cmdOp, getLsbD_mkWord, hi]

@[simp] theorem cmdData_mkWord (op : Byte) (d : Word64) : cmdData (mkWord op d) = d := by
  apply BitVec.eq_of_getLsbD_eq
  intro i hi
  simp [cmdData, getLsbD_mkWord, hi]

/-- A word is its opcode byte over its operand. -/
theorem mkWord_slices (w : CmdWord) : mkWord (cmdOp w) (cmdData w) = w := by
  apply BitVec.eq_of_getLsbD_eq
  intro i (hi : i < 72)
  simp only [getLsbD_mkWord, cmdOp, cmdData, BitVec.getLsbD_extractLsb']
  by_cases h : i < 64
  · simp [h]
  · simp [h, show i - 64 < 8 by omega, show 64 + (i - 64) = i by omega]

/-- The opcode map is injective, so an operation's byte names it. -/
@[simp] theorem opcodeOf_opcodeByte (op : Opcode) : opcodeOf (opcodeByte op) = some op := by
  cases op <;> decide

/-- A byte names an operation only if it is that operation's. -/
theorem opcodeByte_of_opcodeOf {b : Byte} {op : Opcode} (h : opcodeOf b = some op) : opcodeByte op = b := by
  have := List.find?_some h
  simpa using this

@[simp] theorem spaceOf_spaceNumber (s : PeekSpace) : spaceOf (spaceNumber s) = some s := by
  cases s <;> decide

theorem spaceNumber_of_spaceOf {n : BitVec 4} {s : PeekSpace} (h : spaceOf n = some s) : spaceNumber s = n := by
  have := List.find?_some h
  simpa using this

/-- Decoding a word made of its parts looks the byte up and reads the operand by its format. -/
theorem decode_mkWord (op : Opcode) (d : Word64) : decode (mkWord (opcodeByte op) d) = decodeOperand op d := by
  simp [decode]

/-- All a successful decode can have read. -/
theorem decode_ok {w : CmdWord} {i : Instr} (h : decode w = .ok i) :
    ∃ op, opcodeOf (cmdOp w) = some op ∧ decodeOperand op (cmdData w) = .ok i := by
  unfold decode at h
  split at h
  · cases h
  · exact ⟨_, by assumption, h⟩

/-- Format N accepts the zero operand and no other. -/
theorem decodeN_ok {i j : Instr} {d : Word64} : decodeN i d = .ok j ↔ d = 0#64 ∧ i = j := by
  unfold decodeN; split <;> simp_all

/-- Format C accepts the operands whose upper 56 bits are zero. -/
theorem decodeC_ok {d : Word64} {j : Instr} :
    decodeC d = .ok j ↔ d.extractLsb' 8 56 = 0#56 ∧ Instr.kchar (d.extractLsb' 0 8) = j := by
  unfold decodeC; split <;> simp_all

/-- Format P accepts the operands whose upper 52 bits are zero and whose address exists. -/
theorem decodeP_ok {d : Word64} {j : Instr} :
    decodeP d = .ok j ↔ d.extractLsb' 12 52 = 0#52 ∧
      ∃ s, spaceOf (d.extractLsb' 8 4) = some s ∧ (d.extractLsb' 0 8).toNat < s.size ∧
        Instr.peek s (d.extractLsb' 0 8) = j := by
  unfold decodeP
  split
  · rename_i h
    cases spaceOf (d.extractLsb' 8 4) with
    | none => simp [h]
    | some s =>
      simp only [h]
      split <;> simp_all
  · simp_all

end Sys2Proof
end

