-- ==== Sys2Proof/Laws/PerInstr.lean ====
section
/-! SUPPORT. Statements about every command as syntax, one lemma per constructor. -/

namespace Sys2Proof.Laws

/-- The row of spec/opcode_table.json that a command's word is in: under the row's mask the word is the row's match
(30_encoding.md R84). -/
def EncodeRow.Statement (i : Instr) : Prop :=
  encode i &&& opcodeMask (opcodeOfInstr i) = opcodeMatch (opcodeOfInstr i)

/-- A mask keeps or drops each half of a word by itself. -/
theorem EncodeRow.and_mkWord (op : Byte) (d : Word64) (opMask : Byte) (dMask : Word64) :
    mkWord op d &&& mkWord opMask dMask = mkWord (op &&& opMask) (d &&& dMask) := BitVec.and_append

/-- A command is in its row when its operand has no bit under the mask's lower half. -/
theorem EncodeRow.of_operand {i : Instr} {m : Word64} (hm : opcodeMask (opcodeOfInstr i) = mkWord 0xFF#8 m)
    (hz : operandOf i &&& m = 0#64) : EncodeRow.Statement i := by
  unfold EncodeRow.Statement encode
  rw [hm, EncodeRow.and_mkWord, hz]
  generalize opcodeOfInstr i = op
  cases op <;> decide

/-- A zero-extended operand has no bit in its upper part. -/
theorem EncodeRow.upper_zero {n k : Nat} (x : BitVec n) : (0#k ++ x) &&& (BitVec.allOnes k ++ 0#n) = 0#k ++ 0#n := by
  rw [BitVec.and_append]; simp

theorem EncodeRow.nop : EncodeRow.Statement .nop := EncodeRow.of_operand (m := BitVec.allOnes 64) (by decide) (by decide)
theorem EncodeRow.clr : EncodeRow.Statement .clr := EncodeRow.of_operand (m := BitVec.allOnes 64) (by decide) (by decide)
theorem EncodeRow.kinit : EncodeRow.Statement .kinit := EncodeRow.of_operand (m := BitVec.allOnes 64) (by decide) (by decide)

theorem EncodeRow.kchar (ch : Byte) : EncodeRow.Statement (.kchar ch) :=
  EncodeRow.of_operand (m := BitVec.allOnes 56 ++ 0#8) (by decide : opcodeMask .kchar = _)
    ((EncodeRow.upper_zero (k := 56) ch).trans (by decide))

theorem EncodeRow.kend : EncodeRow.Statement .kend := EncodeRow.of_operand (m := BitVec.allOnes 64) (by decide) (by decide)

theorem EncodeRow.tload (t : Word64) : EncodeRow.Statement (.tload t) :=
  EncodeRow.of_operand (m := 0#64) (by decide : opcodeMask .tload = _) BitVec.and_zero

theorem EncodeRow.cload (c : Word64) : EncodeRow.Statement (.cload c) :=
  EncodeRow.of_operand (m := 0#64) (by decide : opcodeMask .cload = _) BitVec.and_zero

theorem EncodeRow.mac : EncodeRow.Statement .mac := EncodeRow.of_operand (m := BitVec.allOnes 64) (by decide) (by decide)
theorem EncodeRow.trunc : EncodeRow.Statement .trunc := EncodeRow.of_operand (m := BitVec.allOnes 64) (by decide) (by decide)
theorem EncodeRow.gen : EncodeRow.Statement .gen := EncodeRow.of_operand (m := BitVec.allOnes 64) (by decide) (by decide)

theorem EncodeRow.peek (s : PeekSpace) (i : Byte) : EncodeRow.Statement (.peek s i) :=
  EncodeRow.of_operand (m := BitVec.allOnes 52 ++ 0#12) (by decide : opcodeMask .peek = _)
    ((EncodeRow.upper_zero (k := 52) (spaceNumber s ++ i)).trans (by decide))

end Sys2Proof.Laws
end

