-- ==== Sys2Proof/Laws/Step.lean ====
section
/-! SUPPORT. What an accepted word and a step can do, said once (30_encoding.md R90; 70_reset_and_hazards.md R220). -/

namespace Sys2Proof.Machine

/-- An illegal word sets `ILL` and nothing else (60_exceptions.md R204). -/
theorem execWord_illegal {w : CmdWord} {e : DecodeError} (h : decode w = .error e) (s : State) :
    execWord w s = .next (setIll true s) := by
  simp [execWord, h]

/-- A legal word is the command it decodes to. -/
theorem execWord_legal {w : CmdWord} {i : Instr} (h : decode w = .ok i) (s : State) : execWord w s = exec i s := by
  simp [execWord, h]

/-- With no move to make the block holds its state (60_exceptions.md R215). -/
theorem step_idle {s : State} (h : s.pending = []) : step s = .next s := by
  simp [step, h]

/-- A reset between two commands (70_reset_and_hazards.md R220). -/
theorem step_reset {s : State} {rest : List HostMove} (h : s.pending = .reset :: rest) :
    step s = .next (resetBlock (takeMove s)) := by
  simp [step, h]

/-- A word is accepted and has its effect. -/
theorem step_command {s : State} {w : CmdWord} {rest : List HostMove} (h : s.pending = .command w :: rest) :
    step s = execWord w (acceptWord s) := by
  simp [step, h]

/-- An accepted word leaves the host's list and is counted. -/
theorem acceptWord_eq {s : State} {m : HostMove} {rest : List HostMove} (h : s.pending = m :: rest) :
    acceptWord s = { s with pending := rest, cp := s.cp + 1 } := by
  simp [acceptWord, takeMove, h]

/-- All a step that has a next state can be: no move, a reset, an illegal word, or a command. -/
theorem step_next {s t : State} (h : step s = .next t) :
    (s.pending = [] ∧ t = s) ∨
    (∃ rest, s.pending = .reset :: rest ∧ t = resetBlock (takeMove s)) ∨
    (∃ w rest e, s.pending = .command w :: rest ∧ decode w = .error e ∧ t = setIll true (acceptWord s)) ∨
    (∃ w rest i, s.pending = .command w :: rest ∧ decode w = .ok i ∧ exec i (acceptWord s) = .next t) := by
  cases hp : s.pending with
  | nil =>
    rw [step_idle hp] at h
    exact .inl ⟨rfl, (Host.Outcome.next.inj h).symm⟩
  | cons m rest =>
    cases m with
    | reset =>
      rw [step_reset hp] at h
      exact .inr (.inl ⟨rest, rfl, (Host.Outcome.next.inj h).symm⟩)
    | command w =>
      rw [step_command hp] at h
      cases hd : decode w with
      | error e =>
        rw [execWord_illegal hd] at h
        exact .inr (.inr (.inl ⟨w, rest, e, rfl, hd, (Host.Outcome.next.inj h).symm⟩))
      | ok i =>
        rw [execWord_legal hd] at h
        exact .inr (.inr (.inr ⟨w, rest, i, rfl, hd, h⟩))

/-- All a command that has a next state can have done, the whole instruction set at once: it was suppressed, or it is one
of the eleven with its effect. -/
theorem exec_next {i : Instr} {s t : State} (h : exec i s = .next t) :
    (precond i s = false ∧ t = setSqe true s ∧
      ((∃ ch, i = .kchar ch) ∨ i = .kend ∨ i = .mac ∨ i = .trunc ∨ i = .gen)) ∨
    (precond i s = true ∧
      ((i = .nop ∧ t = s) ∨
      (i = .clr ∧ t = resetBlock s) ∨
      (i = .kinit ∧ t =
        { s with
          acc := 0#12, nb := 0#4, kne := false, kblk := zeroBlock, kfill := 0#7, klen := 0#64, klong := false
          h := zeroChain, digest := Vector.replicate 20 0x00#8, offset := 0#4, bin := 0#31, code := 0#20
          digits := Vector.replicate 6 0x00#8
          status := { s.status with kv := false, isf := false, ka := true, dv := false, ov := false } }) ∨
      (∃ ch, i = .kchar ch ∧
        ((s.status.isf = true ∨ charClass ch = .strip) ∧ t = s ∨
        s.status.isf = false ∧ charClass ch = .invalid ∧ t = setIsf true s ∨
        s.status.isf = false ∧ reachesKeyLimit s = false ∧
          ∃ v, charClass ch = .symbol v ∧ t = shiftIn v { s with kne := true })) ∨
      (i = .kend ∧ t = kendBody s) ∨
      (∃ x, i = .tload x ∧ t = loadCounter (counterOf x) s) ∨
      (∃ x, i = .cload x ∧ t = loadCounter x s) ∨
      (i = .mac ∧ t = macCore (invalCode s)) ∨
      (i = .trunc ∧ t = truncCore s) ∨
      (i = .gen ∧ t = truncCore (macCore (invalCode s))) ∨
      (∃ sp k, i = .peek sp k ∧
        ((∃ b, memRead sp k.toNat s = some b ∧ t = { s with rdata := b }) ∨
        ¬ i.WellFormed ∧ t = setIll true s)))) := by
  cases i with
  | nop => cases h; simp [precond]
  | clr => cases h; simp [precond]
  | kinit =>
    rw [show exec .kinit s = execKinit s from rfl, execKinit_eq] at h
    cases h
    simp [precond]
  | kchar ch =>
    rcases execKchar_next h with ⟨_, rfl⟩ | ⟨_, _, rfl⟩ | ⟨_, _, _, rfl⟩ | ⟨_, _, _, rfl⟩ | ⟨_, _, _, v, _, rfl⟩ <;>
      simp_all [precond]
  | kend => rcases execKend_next h with ⟨_, rfl⟩ | ⟨_, rfl⟩ <;> simp_all [precond]
  | tload x => cases h; simp [precond]
  | cload x => cases h; simp [precond]
  | mac => rcases execMac_next h with ⟨_, rfl⟩ | ⟨_, _, rfl⟩ <;> simp_all [precond]
  | trunc => rcases execTrunc_next h with ⟨_, rfl⟩ | ⟨_, rfl⟩ <;> simp_all [precond]
  | gen => rcases execGen_next h with ⟨_, rfl⟩ | ⟨_, _, rfl⟩ <;> simp_all [precond]
  | peek sp k =>
    rcases execPeek_next h with ⟨b, hb, rfl⟩ | ⟨hm, rfl⟩
    · simp [precond, hb]
    · have hn := memRead_isSome sp k.toNat s
      rw [hm] at hn
      have hw : ¬ (Instr.peek sp k).WellFormed := by simpa [Instr.WellFormed, Instr.wellFormed] using hn
      simp [precond, hw]

/-- No command touches the host's side of the port. -/
theorem exec_host {i : Instr} {s t : State} (h : exec i s = .next t) : t.pending = s.pending ∧ t.cp = s.cp := by
  cases i with
  | nop => cases h; simp
  | clr => cases h; simp
  | kinit => cases h; simp
  | kchar ch =>
    rcases execKchar_next h with ⟨_, rfl⟩ | ⟨_, _, rfl⟩ | ⟨_, _, _, rfl⟩ | ⟨_, _, _, rfl⟩ | ⟨_, _, _, v, _, rfl⟩ <;> simp
  | kend =>
    rcases execKend_next h with ⟨_, rfl⟩ | ⟨_, rfl⟩
    · simp
    · unfold kendBody
      dsimp only
      split
      · simp
      · split
        · split <;> simp
        · simp
  | tload x => cases h; simp
  | cload x => cases h; simp
  | mac => rcases execMac_next h with ⟨_, rfl⟩ | ⟨_, _, rfl⟩ <;> simp
  | trunc => rcases execTrunc_next h with ⟨_, rfl⟩ | ⟨_, rfl⟩ <;> simp
  | gen => rcases execGen_next h with ⟨_, rfl⟩ | ⟨_, _, rfl⟩ <;> simp
  | peek sp k => rcases execPeek_next h with ⟨_, _, rfl⟩ | ⟨_, rfl⟩ <;> simp

end Sys2Proof.Machine
end

