-- ==== Sys2Proof/Tests/Slice0.lean ====
section
/-! SUPPORT. The model's own tests, each about one step or one function on a small state, with the expected results of
spec/95_test_vectors.md (V) or of the rule named; and one witness for the hypotheses of each claim of
Certificates/Slice0/Obligations.lean. -/

namespace Sys2Proof.Tests

open Sys2Proof Sys2Proof.Machine

/-! ## Helpers -/

/-- The next state of an outcome. -/
def nextOf (o : Host.Outcome State Fault Refusal) : Option State :=
  match o with
  | .next s => some s
  | .fault _ => none
  | .refused _ => none

/-- Whether an outcome is the refusal at the key length limit. -/
def refusedAtLimit (o : Host.Outcome State Fault Refusal) : Bool :=
  match o with
  | .refused .keyLengthLimit => true
  | _ => false

/-- A part of the state after one command. -/
def after {α : Type} (i : Instr) (s : State) (f : State → α) : Option α := (nextOf (exec i s)).map f

/-- `STATUS` after one word. -/
def statusAfter (w : CmdWord) (s : State) : Option (BitVec 8) := (nextOf (execWord w s)).map portStatus

/-- An ingest just opened from reset. -/
def ingest : State := { State.reset with status := { Status.reset with ka := true } }

/-- The key "12345678901234567890" of V1. -/
def v1Key : List Byte :=
  [0x31#8, 0x32#8, 0x33#8, 0x34#8, 0x35#8, 0x36#8, 0x37#8, 0x38#8, 0x39#8, 0x30#8,
   0x31#8, 0x32#8, 0x33#8, 0x34#8, 0x35#8, 0x36#8, 0x37#8, 0x38#8, 0x39#8, 0x30#8]

/-- V1 after `KEND`: the key is ready. -/
def keyed : State :=
  { State.reset with
    kne := true, kblk := blockOf v1Key, klen := 20#64, status := { Status.reset with kv := true } }

/-- V1 after `TLOAD 59`: key and counter are ready. -/
def loaded : State := { keyed with ctr := 1#64, status := { keyed.status with cv := true } }

/-- V1's digest. -/
def v1Digest : Digest :=
  #v[0x75#8, 0xa4#8, 0x8a#8, 0x19#8, 0xd4#8, 0xcb#8, 0xe1#8, 0x00#8, 0x64#8, 0x4e#8,
     0x8a#8, 0xc1#8, 0x39#8, 0x7e#8, 0xea#8, 0x74#8, 0x7a#8, 0x2d#8, 0x33#8, 0xab#8]

/-- A state with a chosen digest (V30). -/
def withDigest (d : Digest) : State := { loaded with digest := d, status := { loaded.status with dv := true } }

/-- A state whose digest and code are those of its key and counter. -/
def computed : State :=
  { loaded with
    digest := macDigest loaded.kblk loaded.ctr
    offset := truncOffset (macDigest loaded.kblk loaded.ctr)
    bin := truncBin (macDigest loaded.kblk loaded.ctr)
    code := codeOf (truncBin (macDigest loaded.kblk loaded.ctr))
    digits := digitsOf (codeOf (truncBin (macDigest loaded.kblk loaded.ctr)))
    status := { loaded.status with dv := true, ov := true } }

/-! ## Well-formedness: a term that each check refuses (20_memory.md R61) -/

theorem test_peek_kblk_64_is_illFormed : ¬ (Instr.peek .kblk 64#8).WellFormed := by decide

theorem test_peek_msg_8_is_illFormed : ¬ (Instr.peek .msg 8#8).WellFormed := by decide

theorem test_peek_digest_20_is_illFormed : ¬ (Instr.peek .digest 20#8).WellFormed := by decide

theorem test_peek_digits_6_is_illFormed : ¬ (Instr.peek .digits 6#8).WellFormed := by decide

/-! ## Decoding: words written out from 30_encoding.md R82, R84 and V11, V15, V42, P1 to P5 -/

/-- Format N: opcode byte over zeros. -/
theorem test_decode_nop : decode (0x00#8 ++ 0#64) = .ok .nop := by decide

theorem test_decode_clr : decode 0x010000000000000000#72 = .ok .clr := by decide

theorem test_decode_kinit : decode 0x100000000000000000#72 = .ok .kinit := by decide

/-- Bit by bit: `0001 0001`, 56 zero bits, `0101 1010`: `KCHAR 'Z'` (V11). -/
theorem test_decode_kchar :
    decode (0b00010001#8 ++ 0b00000000000000000000000000000000000000000000000000000000#56 ++ 0b01011010#8) =
      .ok (.kchar 0x5A#8) := by decide

theorem test_decode_kend : decode 0x120000000000000000#72 = .ok .kend := by decide

/-- V15: `TLOAD` of 20000000000. -/
theorem test_decode_tload : decode 0x2000000004A817C800#72 = .ok (.tload 20000000000#64) := by decide

theorem test_decode_cload : decode 0x21FFFFFFFFFFFFFFFF#72 = .ok (.cload 0xFFFFFFFFFFFFFFFF#64) := by decide

theorem test_decode_mac : decode 0x300000000000000000#72 = .ok .mac := by decide

theorem test_decode_trunc : decode 0x310000000000000000#72 = .ok .trunc := by decide

theorem test_decode_gen : decode 0x320000000000000000#72 = .ok .gen := by decide

/-- V42: `PEEK DIGITS, 5`: space 3 in bits 11:8. -/
theorem test_decode_peek : decode 0x400000000000000305#72 = .ok (.peek .digits 5#8) := by decide

/-- The table's numbering of a word is the word's own: `KCHAR 'M'`. -/
theorem test_decodeTableWord : decodeTableWord 72 0x11000000000000004D = some (.kchar 0x4D#8) := by decide

/-- V40, all of it: every one of these words is illegal and leaves status 0x80 from reset. -/
theorem test_v40_illegal_words :
    ([0x020000000000000000#72, 0xFF0000000000000000#72, 0x130000000000000000#72, 0x330000000000000000#72,
      0x410000000000000000#72, 0x000000000000000001#72, 0x018000000000000000#72, 0x110000000000000141#72,
      0x300000000000000001#72, 0x400000000000000400#72, 0x400000000000000040#72, 0x400000000000000108#72,
      0x400000000000000214#72, 0x400000000000000306#72, 0x400000000000001000#72].map fun w =>
        statusAfter w State.reset) = List.replicate 15 (some 0x80#8) := by decide

/-- V41: an illegal `KCHAR` outside an ingest is `ILL` only; a legal one is `SQE` only, its character not looked at. -/
theorem test_v41_priority :
    statusAfter 0x110000000000000141#72 State.reset = some 0x80#8 ∧
      statusAfter 0x110000000000000031#72 State.reset = some 0x40#8 := by decide

/-! ## One step of each command -/

/-- P5 word 1: `CLR` clears the sticky flags. -/
theorem test_clr_clears_sqe :
    after .clr { loaded with status := { loaded.status with sqe := true, ill := true }, rdata := 0xAB#8 } id =
      some State.reset := by decide +kernel

/-- R104's example: from status 0x0F, `KINIT` gives status 0x12 and keeps the counter. -/
theorem test_kinit_keeps_the_counter :
    after .kinit { loaded with status := { loaded.status with dv := true, ov := true } }
      (fun t => (portStatus t, t.ctr, t.kblk)) = some (0x12#8, 1#64, Vector.replicate 64 0#8) := by decide

/-- V11: `KCHAR 'M'` gives `ACC = 00C`, `NB = 5`, no byte; then `KCHAR 'Z'` pushes 0x66 and leaves `ACC = 001`,
`NB = 2`. V12: an invalid character sets `ISF` only. -/
theorem test_kchar_symbols_and_invalid :
    let second := { ingest with acc := 0x00C#12, nb := 5#4, kne := true }
    after (.kchar 0x4D#8) ingest (fun t => (t.acc, t.nb, t.kfill, t.kne)) = some (0x00C#12, 5#4, 0#7, true) ∧
      after (.kchar 0x5A#8) second (fun t => (t.acc, t.nb, t.kblk[0], t.kfill, t.klen)) =
        some (0x001#12, 2#4, 0x66#8, 1#7, 1#64) ∧
      after (.kchar 0x31#8) second (fun t => (portStatus t, t.acc, t.nb)) = some (0x30#8, 0x00C#12, 5#4) := by decide

/-- V22, `L = 65`: the 65th byte compresses the 64 bytes `aa` into `H`. -/
theorem test_kchar_65th_byte :
    after (.kchar 0x4B#8)
      { ingest with
        acc := 0x005#12, nb := 3#4, kne := true, kblk := Vector.replicate 64 0xAA#8, kfill := 64#7, klen := 64#64 }
      (fun t => (t.h, t.kfill, t.klong, t.kblk[0])) =
      some (#v[0xf90ba1b5#32, 0x0ff0aea0#32, 0x54242251#32, 0x212cdd93#32, 0xf4a4efd5#32], 1#7, true, 0xAA#8) := by
  decide +kernel

/-- V10, `"MY"`: the key is ready, the partial group dropped. -/
theorem test_kend_key_ready :
    after .kend { ingest with nb := 2#4, acc := 1#12, kne := true, kfill := 1#7, klen := 1#64 }
      (fun t => (portStatus t, t.acc, t.nb, t.kfill, t.klen)) = some (0x01#8, 0#12, 0#4, 0#7, 1#64) := by decide

/-- V22, `L = 65`: `KEND` completes the hash of 65 bytes `aa`; shown is K0[0..3]. -/
theorem test_kend_long_key :
    after .kend
      { ingest with
        kne := true, kblk := blockOf [0xAA#8], kfill := 1#7, klen := 65#64, klong := true
        h := #v[0xf90ba1b5#32, 0x0ff0aea0#32, 0x54242251#32, 0x212cdd93#32, 0xf4a4efd5#32] }
      (fun t => (t.kblk.toList.take 4, t.kblk[20], t.h, portStatus t)) =
      some ([0x0b#8, 0x53#8, 0x1d#8, 0x74#8], 0x00#8, Vector.replicate 5 0#32, 0x01#8) := by decide +kernel

/-- V15: the time is unsigned, and `TLOAD` divides by 30. -/
theorem test_tload_table :
    [29#64, 30#64, 7680#64, 0x8000000000000000#64, 0xFFFFFFFFFFFFFFFF#64].map
      (fun x => after (.tload x) State.reset State.ctr) =
      [some 0#64, some 1#64, some 256#64, some 0x0444444444444444#64, some 0x0888888888888888#64] := by decide

/-- V16: a counter load makes the digest and the code stale, bit for bit. -/
theorem test_tload_invalidates :
    after (.tload 59#64) { (withDigest v1Digest) with status := { loaded.status with dv := true, ov := true } }
      (fun t => (portStatus t, t.digest, t.ctr)) = some (0x03#8, Vector.replicate 20 0#8, 1#64) := by decide

/-- V15: `CLOAD` stores the counter; `MSG` is big-endian. -/
theorem test_cload_msg :
    after (.cload 0x0123456789ABCDEF#64) State.reset (fun t => ((msgOf t).toList, portStatus t)) =
      some ([0x01#8, 0x23#8, 0x45#8, 0x67#8, 0x89#8, 0xab#8, 0xcd#8, 0xef#8], 0x02#8) := by decide

/-- V20: the engine on the padded block "abc". -/
theorem test_sha1_abc :
    sha1Compress sha1Iv (blockOf ([0x61#8, 0x62#8, 0x63#8, 0x80#8] ++ List.replicate 59 0#8 ++ [0x18#8])) =
      #v[0xa9993e36#32, 0x4706816a#32, 0xba3e2571#32, 0x7850c26c#32, 0x9cd0d89d#32] := by decide +kernel

/-- V1: the digest of the known-answer test. -/
theorem test_mac_v1 : after .mac loaded (fun t => (t.digest, portStatus t)) = some (v1Digest, 0x07#8) := by
  decide +kernel

/-- V25: no key, so `MAC` is suppressed. -/
theorem test_mac_without_key :
    statusAfter 0x300000000000000000#72 { State.reset with status := { Status.reset with cv := true } } =
      some 0x42#8 := by decide

/-- V1: the code of the known-answer test, its sign bit cleared. -/
theorem test_trunc_v1 :
    after .trunc (withDigest v1Digest) (fun t => (t.offset, t.bin, t.code, t.digits.toList)) =
      some (11#4, 0x41397EEA#31, 287082#20, [0x32#8, 0x38#8, 0x37#8, 0x30#8, 0x38#8, 0x32#8]) := by decide +kernel

/-- V30: the last select position and a code that is all zeros; 20 bytes `ff`. -/
theorem test_trunc_v30 :
    after .trunc (withDigest (#v[0, 0, 0, 0, 0, 0, 0, 0, 0, 0, 0, 0, 0, 0, 0, 0x3b, 0x9a, 0xca, 0x00, 0xff]))
        (fun t => (t.offset, t.bin, t.digits)) = some (15#4, 1000000000#31, Vector.replicate 6 0x30#8) ∧
      after .trunc (withDigest (Vector.replicate 20 0xff#8)) (fun t => (t.bin, t.code)) =
        some (0x7fffffff#31, 483647#20) := by decide +kernel

/-- V1 by `GEN`: status 0x0F and the ports' values. -/
theorem test_gen_v1 :
    after .gen loaded (fun t => (portStatus t, portCodeAscii t, portCodeBin t)) =
      some (0x0F#8, 0x323837303832#48, 0x4616A#20) := by decide +kernel

/-- V25: no counter, so `GEN` is suppressed. -/
theorem test_gen_without_counter : after .gen keyed portStatus = some 0x41#8 := by decide

/-- V42: the last byte of each space. -/
theorem test_peek_last_bytes :
    after (.peek .digest 19#8) (withDigest v1Digest) portRdata = some 0xAB#8 ∧
      after (.peek .msg 7#8) loaded portRdata = some 0x01#8 ∧
      after (.peek .kblk 63#8) keyed portRdata = some 0x00#8 ∧
      after (.peek .kblk 19#8) keyed portRdata = some 0x30#8 := by decide +kernel

/-- R92, R220: the block is ready unless it is about to be reset. -/
theorem test_cmd_ready :
    portCmdReady State.reset = true ∧ portCmdReady { State.reset with pending := [.reset] } = false := by decide

/-! ## The step, the host's moves, the table's words -/

/-- A word placed by the host is the next step's command: `TLOAD 59` runs from reset, and `cp` counts it. -/
theorem test_step_runs_the_placed_word :
    (nextOf (step (State.reset.withFetchWord 72 0x20000000000000003B))).map (fun t => (t.ctr, t.cp, t.pending)) =
      some (1#64, 1, []) := by decide

/-- A reset between commands leaves the reset state (R220). -/
theorem test_step_reset :
    nextOf (step { loaded with pending := [.reset] }) = some State.reset := by decide +kernel

/-! ## Text (30_encoding.md R88, R89) -/

theorem test_assemble_kchar :
    assemble "KCHAR 'G' ; a character".toList = some [.kchar 0x47#8] ∧
      assemble "KCHAR 0x47".toList = some [.kchar 0x47#8] := by decide +kernel

theorem test_assemble_peek :
    assemble "PEEK DIGEST, 19".toList = some [.peek .digest 19#8] ∧ assemble "PEEK MSG, 8".toList = none := by
  decide +kernel

theorem test_assemble_totp :
    assemble "TOTP \"MY\", 59".toList =
      some [.kinit, .kchar 0x4D#8, .kchar 0x59#8, .kend, .tload 59#64, .gen] := by decide +kernel

/-! ## The functions claims compare with -/

/-- V10: `"MZ"` has two non-zero bits left over, which are dropped; padding is invalid; no symbol is the empty secret. -/
theorem test_b32Decode :
    b32Decode [0x4D#8, 0x5A#8] = some [0x66#8] ∧ b32Decode [0x4D#8, 0x59#8, 0x3D#8] = none ∧
      b32Decode [0x20#8, 0x2D#8] = none ∧ b32Decode [0x41#8] = some [] := by decide

/-! ## Witnesses: states and operands that meet the hypotheses of each claim, at the edges of their ranges -/

theorem test_witness_DecodeOfEncode :
    (Instr.peek .kblk 63#8).WellFormed ∧ (Instr.peek .msg 7#8).WellFormed ∧ (Instr.peek .digest 19#8).WellFormed ∧
      (Instr.peek .digits 5#8).WellFormed ∧ (Instr.kchar 0xFF#8).WellFormed := by decide

theorem test_witness_EncodeOfDecode : decode 0x400000000000000213#72 = .ok (.peek .digest 19#8) := by decide

/-- One word in each part of the definition, and the legal words beside them. -/
theorem test_witness_IllegalWords :
    IllegalWord 0x020000000000000000#72 ∧ IllegalWord 0x010000000000000001#72 ∧ IllegalWord 0x110000000000000100#72 ∧
      IllegalWord 0x400000000000001000#72 ∧ IllegalWord 0x400000000000000400#72 ∧ IllegalWord 0x400000000000000040#72 ∧
      IllegalWord 0x400000000000000108#72 ∧ IllegalWord 0x400000000000000214#72 ∧ IllegalWord 0x400000000000000306#72 ∧
      ¬ IllegalWord 0x1100000000000000FF#72 ∧ ¬ IllegalWord 0x40000000000000003F#72 ∧
      ¬ IllegalWord 0x400000000000000305#72 ∧ ¬ IllegalWord 0x20FFFFFFFFFFFFFFFF#72 := by
  refine ⟨?_, ?_, ?_, ?_, ?_, ?_, ?_, ?_, ?_, ?_, ?_, ?_, ?_⟩ <;> unfold IllegalWord IllegalFields <;> decide

/-- An illegal word as the host's next one. -/
theorem test_witness_IllegalWords_step :
    IllegalWord 0x020000000000000000#72 ∧
      ({ State.reset with pending := [.command 0x020000000000000000#72] } : State).pending =
        HostMove.command 0x020000000000000000#72 :: [] := ⟨test_witness_IllegalWords.1, rfl⟩

theorem test_witness_StepRunsTheDecodedCommand :
    (State.reset.withFetchWord 72 0x300000000000000000).pending = HostMove.command 0x300000000000000000#72 :: [] ∧
      decode 0x300000000000000000#72 = .ok .mac := by decide

/-- The three lines of the step function: an illegal word, a suppressed command, an admitted one. -/
theorem test_witness_StepFunctionOfTheSpec :
    decode 0x300000000000000001#72 = .error .reservedBits ∧ decode 0x310000000000000000#72 = .ok .trunc ∧
      State.reset.status.dv = false ∧ (withDigest v1Digest).status.dv = true := by decide

theorem test_witness_ResetMovesAndIdleSteps :
    ({ loaded with pending := [.reset, .command 0#72] } : State).pending = HostMove.reset :: [.command 0#72] ∧
      loaded.pending = [] := ⟨rfl, rfl⟩

theorem test_witness_CpCountsAcceptedWords :
    ∃ t, step { loaded with pending := [.command 0x020000000000000000#72], cp := 6 } = .next t ∧ t.cp = 7 := ⟨_, rfl, rfl⟩

/-- A symbol that would take `KLEN` to 2^61 is refused; one that takes it to 2^61 - 1, or that completes no byte, is not. -/
theorem test_witness_KcharRefusedAtKeyLimit :
    refusedAtLimit (exec (.kchar 0x41#8) { ingest with nb := 3#4, klen := 0x1FFFFFFFFFFFFFFF#64 }) = true ∧
      refusedAtLimit (exec (.kchar 0x41#8) { ingest with nb := 3#4, klen := 0x1FFFFFFFFFFFFFFE#64 }) = false ∧
      refusedAtLimit (exec (.kchar 0x41#8) { ingest with nb := 2#4, klen := 0x1FFFFFFFFFFFFFFF#64 }) = false ∧
      (7#4).toNat ≤ 7 := by decide

/-- Each way of a false precondition. -/
theorem test_witness_SuppressedCommandsSetSqeOnly :
    State.reset.status.ka = false ∧ keyed.status.cv = false ∧ State.reset.status.kv = false ∧
      loaded.status.dv = false := by decide

/-- Each order of the three errors. -/
theorem test_witness_AtMostOneErrorPerCommand :
    (∃ t, execWord 0x110000000000000141#72 State.reset = .next t) ∧
      decode 0x110000000000000141#72 = .error .reservedBits ∧
      (∃ t, execWord 0x110000000000000031#72 State.reset = .next t) ∧
      decode 0x110000000000000031#72 = .ok (.kchar 0x31#8) ∧ precond (.kchar 0x31#8) State.reset = false ∧
      (∃ t, execWord 0x110000000000000031#72 ingest = .next t ∧ t.status.isf = true) ∧
      precond (.kchar 0x31#8) ingest = true ∧ ingest.status.isf = false :=
  ⟨⟨_, rfl⟩, by decide, ⟨_, rfl⟩, by decide, by decide, ⟨_, rfl, by decide⟩, by decide, by decide⟩

/-- All three error flags set, and a command that clears one. -/
theorem test_witness_ErrorFlagsAreSticky :
    ∃ t, exec .kinit { loaded with status := { loaded.status with isf := true, sqe := true, ill := true } } = .next t ∧
      t.status.isf = false ∧ t.status.sqe = true ∧ t.status.ill = true := ⟨_, rfl, rfl, rfl, rfl⟩

/-- Every flag rises somewhere. -/
theorem test_witness_FlagsAreWrittenByTheirCommands :
    (after .kend { ingest with kne := true } (fun t => t.status.kv) = some true) ∧
      (after (.cload 0#64) State.reset (fun t => t.status.cv) = some true) ∧
      (after .trunc (withDigest v1Digest) (fun t => t.status.ov) = some true) ∧
      (after .kinit State.reset (fun t => t.status.ka) = some true) ∧
      (after .kend ingest (fun t => t.status.isf) = some true) ∧
      (after .gen State.reset (fun t => t.status.sqe) = some true) := by decide +kernel

/-- A digest rises and a flag falls. -/
theorem test_witness_FlagsAreWrittenByTheirCommands_fall :
    (∃ t, exec .mac loaded = .next t ∧ t.status.dv = true) ∧ loaded.status.dv = false ∧
      (∃ t, exec .kinit loaded = .next t ∧ t.status.kv = false) ∧ loaded.status.kv = true :=
  ⟨⟨_, rfl, rfl⟩, rfl, ⟨_, rfl, rfl⟩, rfl⟩

/-- One change of each group of registers. -/
theorem test_witness_WriteMatrix :
    (after (.kchar 0x4D#8) ingest (fun t => decide (t.acc ≠ ingest.acc ∧ t.kne ≠ ingest.kne)) = some true) ∧
      (after .kinit keyed (fun t => decide (t.kblk ≠ keyed.kblk ∧ t.klen ≠ keyed.klen)) = some true) ∧
      (after (.cload 9#64) loaded (fun t => decide (t.ctr ≠ loaded.ctr)) = some true) ∧
      (after (.cload 1#64) (withDigest v1Digest) (fun t => decide (t.digest ≠ v1Digest)) = some true) ∧
      (after .trunc (withDigest v1Digest) (fun t => decide (t.bin ≠ 0#31 ∧ t.digits ≠ loaded.digits)) = some true) ∧
      (after (.peek .kblk 0#8) loaded (fun t => decide (t.rdata ≠ loaded.rdata)) = some true) := by decide +kernel

theorem test_witness_NopChangesNothing : (1#64 : Word64) ≠ 0#64 := by decide

/-- The last index of each space, and an illegal word. -/
theorem test_witness_PeekReadsOneByte :
    (63#8).toNat < 64 ∧ (7#8).toNat < 8 ∧ (19#8).toNat < 20 ∧ (5#8).toNat < 6 ∧
      decode (mkWord 0x40#8 0x108#64) = .error .indexOutOfRange := by decide

/-- One character of each class, a failed ingest, and the largest bit count that completes no byte. -/
theorem test_witness_KcharWithoutAByte :
    State.reset.status.ka = false ∧ ingest.status.ka = true ∧ ingest.status.isf = false ∧
      charClass 0x2D#8 = .strip ∧ charClass 0x30#8 = .invalid ∧ charClass 0x37#8 = .symbol 31#5 ∧
      ({ ingest with nb := 2#4, acc := 3#12 } : State).nb.toNat < 3 ∧
      ({ ingest with nb := 2#4, acc := 3#12 } : State).acc.toNat < 2 ^ 2 ∧
      ({ ingest with status := { ingest.status with isf := true } } : State).status.isf = true := by decide

/-- A full block, and seven live bits. -/
theorem test_witness_KcharStoresAByte :
    let s := { ingest with nb := 7#4, acc := 127#12, kne := true, kfill := 64#7, klen := 64#64 }
    s.status.ka = true ∧ s.status.isf = false ∧ charClass 0x7A#8 = .symbol 25#5 ∧ 3 ≤ s.nb.toNat ∧ s.nb.toNat ≤ 7 ∧
      s.acc.toNat < 2 ^ s.nb.toNat ∧ s.kfill.toNat ≤ 64 ∧ s.klen.toNat + 1 < 2 ^ 61 := by decide

/-- A long key with a full block pending, and one with 55 bytes pending. -/
theorem test_witness_KendClosesTheIngest :
    let s := { ingest with kne := true, klong := true, klen := 128#64, kfill := 64#7 }
    let u := { ingest with kne := true, klong := true, klen := 119#64, kfill := 55#7 }
    s.status.ka = true ∧ s.status.isf = false ∧ s.kne = true ∧ s.klong = true ∧ 1 ≤ s.kfill.toNat ∧
      s.kfill.toNat ≤ 64 ∧ u.kfill.toNat = 55 ∧ ingest.kne = false ∧ State.reset.status.ka = false := by decide

theorem test_witness_FailFastIgnoresTheRest :
    ({ ingest with status := { ingest.status with isf := true } } : State).status.ka = true ∧
      ({ ingest with status := { ingest.status with isf := true } } : State).status.isf = true := by decide

theorem test_witness_LetterCaseIsIgnored :
    0x41 ≤ (0x5A#8).toNat ∧ (0x5A#8).toNat ≤ 0x5A ∧ 0x41 ≤ (0x41#8).toNat ∧ (0x41#8).toNat ≤ 0x5A := by decide

theorem test_witness_StreamingDecodeIsTheDecode :
    (∃ s, exec .kinit loaded = .next s) ∧
      secretSymbols [0x4D#8, 0x2D#8, 0x7A#8] = some [12#5, 25#5] ∧ 5 * 2 / 8 < 2 ^ 61 :=
  ⟨⟨_, rfl⟩, by decide, by decide⟩

/-- Both cases of the length: the symbols of a key of at most 64 bytes, and of one more. -/
theorem test_witness_StreamingDecodeIsTheDecode_lengths :
    secretSymbols (List.replicate 104 0x41#8) = some (List.replicate 104 0#5) ∧ 64 < 5 * 104 / 8 ∧
      secretSymbols (List.replicate 103 0x41#8) = some (List.replicate 103 0#5) ∧ 5 * 103 / 8 = 64 := by decide

theorem test_witness_SecretMakesItsKeyBlock :
    b32Decode [0x4D#8, 0x59#8] = some [0x66#8] ∧ ([0x66#8] : List Byte).length < 2 ^ 61 := by decide

theorem test_witness_InvalidSecretMakesNoKey :
    b32Decode [] = none ∧ b32Decode [0x4D#8, 0x31#8] = none ∧ ([0x4D#8, 0x31#8] : List Byte).length < 2 ^ 61 := by
  decide

theorem test_witness_Base32RoundTrip :
    ([0x66#8, 0x6f#8] : List Byte) ≠ [] ∧ b32Encode [0x66#8, 0x6f#8] = [0x4D#8, 0x5A#8, 0x58#8, 0x51#8] := by decide

/-- Either flag missing, and both set. -/
theorem test_witness_MacWritesTheDigest :
    keyed.status.cv = false ∧ State.reset.status.kv = false ∧ loaded.status.kv = true ∧ loaded.status.cv = true := by
  decide

theorem test_witness_MacIsHmacSha1 :
    keyed.kblk.toList = keyBlock v1Key ∧ loaded.status.kv = true ∧ loaded.status.cv = true := by decide +kernel

theorem test_witness_DigestDependsOnKeyAndCounterOnly :
    let u := { loaded with klen := 7#64, rdata := 1#8 }
    loaded.kblk = u.kblk ∧ loaded.ctr = u.ctr ∧ loaded.status.kv = true ∧ loaded.status.cv = true ∧ u.status.kv = true ∧ u.status.cv = true ∧
      (∃ t, exec .mac loaded = .next t) ∧ (∃ t, exec .mac u = .next t) :=
  ⟨rfl, rfl, rfl, rfl, rfl, rfl, ⟨_, rfl⟩, ⟨_, rfl⟩⟩

theorem test_witness_DifferentCountersDifferentBlocks : innerTail (be64 5#64) = innerTail (be64 (2#64 + 3#64)) := by
  decide +kernel

theorem test_witness_TruncMakesTheCode :
    loaded.status.dv = false ∧ (withDigest v1Digest).status.dv = true := by decide

theorem test_witness_GenIsMacThenTrunc :
    keyed.status.cv = false ∧ loaded.status.kv = true ∧ loaded.status.cv = true := by decide

theorem test_v1Key_ends_in_zeros : ∀ i : Fin 64, 20 ≤ i.val → (blockOf v1Key)[i.val]'i.isLt = 0x00#8 := by
  decide +kernel

/-- A state in which every validity flag is set and tells the truth. -/
theorem test_witness_ReissueRecomputes :
    computed.FlagInv ∧ computed.status.dv = true ∧ computed.status.ov = true := by
  refine ⟨⟨fun _ => ⟨rfl, rfl, rfl⟩, fun _ i h hi => ?_, nofun, fun _ => ⟨rfl, rfl, rfl⟩,
    nofun, fun _ => ⟨rfl, rfl, rfl, rfl, rfl⟩, nofun, ?_, nofun⟩, rfl, rfl⟩
  · exact test_v1Key_ends_in_zeros ⟨i, h⟩ hi
  · simp only [computed, codeOf, BitVec.toNat_ofNat, Config.modulus]; omega

/-- An ingest begun, with a word to come. -/
theorem test_witness_StepKeepsInvariant :
    ({ ingest with pending := [.command 0x11000000000000004D#72] } : State).Inv ∧
      ∃ t, step { ingest with pending := [.command 0x11000000000000004D#72] } = .next t := by
  refine ⟨⟨⟨?_, ?_, ?_, ?_⟩, ⟨?_, ?_, ?_, ?_, ?_⟩, ⟨?_, ?_, ?_, ?_, ?_, ?_, ?_, ?_, ?_⟩⟩, ⟨_, rfl⟩⟩ <;>
    simp [ingest, State.reset, Status.reset, zeroChain, Config.klenLimit]

theorem test_witness_ValidityChainIsKept :
    (computed.status.ov = true → computed.status.dv = true) ∧
      (computed.status.dv = true → computed.status.kv = true ∧ computed.status.cv = true) ∧
      (computed.status.kv = true → computed.status.ka = false ∧ computed.status.isf = false) ∧
      ∃ t, step { computed with pending := [.command 0x100000000000000000#72] } = .next t :=
  ⟨fun _ => rfl, fun _ => ⟨rfl, rfl⟩, fun _ => ⟨rfl, rfl⟩, ⟨_, rfl⟩⟩

/-- The key changes (`KINIT`), and the counter changes (`CLOAD`), in a state with a code. -/
theorem test_witness_NoStaleResult :
    computed.FlagInv ∧ (∃ t, exec .kinit computed = .next t ∧ t.kblk ≠ computed.kblk) ∧
      (∃ t, exec (.cload 2#64) computed = .next t ∧ t.ctr ≠ computed.ctr) := by
  refine ⟨test_witness_ReissueRecomputes.1, ⟨_, rfl, ?_⟩, ⟨_, rfl, ?_⟩⟩
  · show zeroBlock ≠ blockOf v1Key
    decide +kernel
  · show (2#64 : Word64) ≠ 1#64
    decide

/-- A secret with a code and one without. -/
theorem test_witness_TotpComputesGenerateCode :
    (generateCode [0x4D#8, 0x59#8] 30#64).isSome ∧ generateCode [0x4D#8, 0x31#8] 30#64 = none ∧
      ([0x4D#8, 0x59#8] : List Byte).length < 2 ^ 61 := ⟨rfl, rfl, by decide⟩

theorem test_witness_HostReadsTheResult :
    loaded.status.sqe = false ∧ loaded.status.ill = false ∧ ([0x4D#8, 0x59#8] : List Byte).length < 2 ^ 61 := by decide

theorem test_witness_KeyIsReusedForANewTime :
    loaded.status.kv = true ∧ loaded.kblk.toList = keyBlock v1Key := by decide +kernel

theorem test_witness_AssembledCommandsHaveWords : assemble "PEEK KBLK, 63".toList = some [.peek .kblk 63#8] := by
  decide +kernel

end Sys2Proof.Tests
end

section
/-! The encoder and the host's moves: the run of a program's words is the run of its commands. -/

namespace Sys2Proof.Machine

/-! ## A command's word decodes to the command -/

/-- The upper bits of a zero-extended operand are zero. -/
theorem extractLsb'_upper_zero_append {k n : Nat} (x : BitVec n) : (0#k ++ x).extractLsb' n k = 0#k := by
  apply BitVec.eq_of_getLsbD_eq
  intro i hi
  simp [BitVec.getLsbD_append]

/-- The lower bits of a concatenation are its second part. -/
theorem extractLsb'_lower_append {k n : Nat} (y : BitVec k) (x : BitVec n) : (y ++ x).extractLsb' 0 n = x := by
  apply BitVec.eq_of_getLsbD_eq
  intro i hi
  simp [BitVec.getLsbD_append, hi]

/-- Format C reads the character back (30_encoding.md R82). -/
theorem decodeC_append (ch : Byte) : decodeC (0#56 ++ ch) = .ok (.kchar ch) :=
  decodeC_ok.2 ⟨extractLsb'_upper_zero_append ch, by rw [extractLsb'_lower_append]⟩

/-- Of three fields in a row the middle one. -/
theorem extractLsb'_middle_append {k m n : Nat} (z : BitVec k) (y : BitVec m) (x : BitVec n) :
    (z ++ (y ++ x)).extractLsb' n m = y := by
  apply BitVec.eq_of_getLsbD_eq
  intro i hi
  simp [BitVec.getLsbD_append, BitVec.getLsbD_eq_getElem, hi, show ¬ m + n ≤ n + i by omega]

/-- Of three fields in a row the lowest one. -/
theorem extractLsb'_lowest_append {k m n : Nat} (z : BitVec k) (y : BitVec m) (x : BitVec n) :
    (z ++ (y ++ x)).extractLsb' 0 n = x := by
  apply BitVec.eq_of_getLsbD_eq
  intro i hi
  simp [BitVec.getLsbD_append, BitVec.getElem_append, hi, show i < m + n by omega]

/-- Format P reads the space and the index back, where the byte exists (30_encoding.md R82, R86). -/
theorem decodeP_append {sp : PeekSpace} {k : Byte} (h : k.toNat < sp.size) :
    decodeP (0#52 ++ (spaceNumber sp ++ k)) = .ok (.peek sp k) := by
  have hidx : (0#52 ++ (spaceNumber sp ++ k)).extractLsb' 0 8 = k := extractLsb'_lowest_append _ _ _
  have hsp : (0#52 ++ (spaceNumber sp ++ k)).extractLsb' 8 4 = spaceNumber sp := extractLsb'_middle_append _ _ _
  exact decodeP_ok.2 ⟨extractLsb'_upper_zero_append _, sp, by rw [hsp, spaceOf_spaceNumber], by rwa [hidx], by rw [hidx]⟩

/-- The decoder inverts the encoder on commands that have a word (30_encoding.md R87). -/
theorem decode_encode {i : Instr} (h : i.WellFormed) : decode (encode i) = .ok i := by
  rw [encode, decode_mkWord]
  cases i with
  | kchar ch => exact decodeC_append ch
  | peek sp k => exact decodeP_append (of_decide_eq_true h)
  | tload x => rfl
  | cload x => rfl
  | nop => exact decodeN_ok.2 ⟨rfl, rfl⟩
  | clr => exact decodeN_ok.2 ⟨rfl, rfl⟩
  | kinit => exact decodeN_ok.2 ⟨rfl, rfl⟩
  | kend => exact decodeN_ok.2 ⟨rfl, rfl⟩
  | mac => exact decodeN_ok.2 ⟨rfl, rfl⟩
  | trunc => exact decodeN_ok.2 ⟨rfl, rfl⟩
  | gen => exact decodeN_ok.2 ⟨rfl, rfl⟩

/-! ## What a command does where its precondition holds and where it fails -/

section
variable {s : State}

/-- A command without its precondition sets `SQE` and does nothing else (60_exceptions.md R203). -/
theorem exec_suppressed {i : Instr} (h : precond i s = false) : exec i s = .next (setSqe true s) := by
  cases i with
  | kchar ch => rw [exec, execKchar, guarded_of_not_precond h]
  | kend => rw [exec, execKend, guarded_of_not_precond h]
  | mac => rw [exec, execMac, guarded_of_not_precond h]
  | trunc => rw [exec, execTrunc, guarded_of_not_precond h]
  | gen => rw [exec, execGen, guarded_of_not_precond h]
  | nop => cases h
  | clr => cases h
  | kinit => cases h
  | tload x => cases h
  | cload x => cases h
  | peek sp k => cases h

/-- In an open ingest a character has its effect. -/
theorem exec_kchar_open (ch : Byte) (h : s.status.ka = true) : exec (.kchar ch) s = kcharBody ch s := by
  rw [exec, execKchar, guarded_of_precond (i := .kchar ch) h]

/-- A character of an ingest that has failed (40_base32_decoder.md R115). -/
theorem exec_kchar_failed (ch : Byte) (hka : s.status.ka = true) (hi : s.status.isf = true) :
    exec (.kchar ch) s = .next s := by
  rw [exec_kchar_open ch hka, kcharBody, if_pos hi]

/-- A strip character (40_base32_decoder.md R103). -/
theorem exec_kchar_strip {ch : Byte} (hka : s.status.ka = true) (hi : s.status.isf = false)
    (hc : charClass ch = .strip) : exec (.kchar ch) s = .next s := by
  rw [exec_kchar_open ch hka, kcharBody, if_neg (by simp [hi]), hc]

/-- An invalid character (40_base32_decoder.md R115). -/
theorem exec_kchar_invalid {ch : Byte} (hka : s.status.ka = true) (hi : s.status.isf = false)
    (hc : charClass ch = .invalid) : exec (.kchar ch) s = .next (setIsf true s) := by
  rw [exec_kchar_open ch hka, kcharBody, if_neg (by simp [hi]), hc, takeError_invalidSecretFormat]

/-- A symbol below the key length limit (40_base32_decoder.md R105, R117). -/
theorem exec_kchar_symbol {ch : Byte} {v : Symbol} (hka : s.status.ka = true) (hi : s.status.isf = false)
    (hc : charClass ch = .symbol v) (hl : reachesKeyLimit s = false) :
    exec (.kchar ch) s = .next (shiftIn v { s with kne := true }) := by
  simp [exec_kchar_open ch hka, kcharBody, hi, hc, hl]

theorem exec_kend_open (h : s.status.ka = true) : exec .kend s = .next (kendBody s) := by
  rw [exec, execKend, guarded_of_precond (i := .kend) h]

theorem exec_mac_valid (hk : s.status.kv = true) (hc : s.status.cv = true) :
    exec .mac s = .next (macCore (invalCode s)) := by
  rw [exec, execMac, guarded_of_precond (by simp [precond, hk, hc])]

theorem exec_trunc_valid (h : s.status.dv = true) : exec .trunc s = .next (truncCore s) := by
  rw [exec, execTrunc, guarded_of_precond (i := .trunc) h]

theorem exec_gen_valid (hk : s.status.kv = true) (hc : s.status.cv = true) :
    exec .gen s = .next (truncCore (macCore (invalCode s))) := by
  rw [exec, execGen, guarded_of_precond (by simp [precond, hk, hc])]

end

/-- A run goes on from where its first command ends (30_encoding.md R91). -/
theorem runCommands_cons {i : Instr} {s t : State} (h : exec i s = .next t) (is : List Instr) :
    runCommands (i :: is) s = runCommands is t := by
  rw [runCommands, h]

/-! ## The host's side of the port plays no part in a command -/

/-- `s` with other host's moves to come and another position. -/
def withHost (p : List HostMove) (c : Nat) (s : State) : State := { s with pending := p, cp := c }

section
variable (p : List HostMove) (c : Nat)

@[simp] theorem withHost_status (s : State) : (withHost p c s).status = s.status := rfl
@[simp] theorem withHost_pending (s : State) : (withHost p c s).pending = p := rfl

theorem precond_withHost (i : Instr) (s : State) : precond i (withHost p c s) = precond i s := by
  cases i <;> rfl

theorem acceptWord_withHost (m : HostMove) (s : State) :
    acceptWord (withHost (m :: p) c s) = withHost p (c + 1) s := rfl

theorem keyPush_withHost (b : Byte) (s : State) : keyPush b (withHost p c s) = withHost p c (keyPush b s) := by
  by_cases h : s.kfill = 64#7
  · rw [keyPush_full b h, keyPush_full b (s := withHost p c s) h]; rfl
  · rw [keyPush_room b h, keyPush_room b (s := withHost p c s) h]; rfl

theorem shiftIn_withHost (v : Symbol) (s : State) : shiftIn v (withHost p c s) = withHost p c (shiftIn v s) := by
  cases h : emitsByte s
  · rw [shiftIn_noByte v h, shiftIn_noByte v (s := withHost p c s) h]; rfl
  · rw [shiftIn_byte v h, shiftIn_byte v (s := withHost p c s) h, ← keyPush_withHost]; rfl

theorem kendBody_withHost (s : State) : kendBody (withHost p c s) = withHost p c (kendBody s) := by
  cases hi : s.status.isf
  · cases hk : s.kne
    · rw [kendBody_empty hi hk, kendBody_empty (s := withHost p c s) hi hk]; rfl
    · cases hl : s.klong
      · rw [kendBody_short hi hk hl, kendBody_short (s := withHost p c s) hi hk hl]; rfl
      · rw [kendBody_long hi hk hl, kendBody_long (s := withHost p c s) hi hk hl]; rfl
  · rw [kendBody_invalid hi, kendBody_invalid (s := withHost p c s) hi]; rfl

variable {p c}

/-- A suppressed command acts the same whatever the host has still to present. -/
theorem exec_withHost_suppressed {i : Instr} {s : State} (h : precond i s = false) :
    exec i (withHost p c s) = .next (withHost p c (setSqe true s)) := by
  rw [exec_suppressed (by rwa [precond_withHost])]
  rfl

/-- A character acts the same whatever the host has still to present. -/
theorem exec_kchar_withHost {ch : Byte} {s t : State} (h : execKchar ch s = .next t) :
    exec (.kchar ch) (withHost p c s) = .next (withHost p c t) := by
  rcases execKchar_next h with ⟨hka, rfl⟩ | ⟨hka, hi, rfl⟩ | ⟨hka, hi, hc, rfl⟩ | ⟨hka, hi, hc, rfl⟩ |
    ⟨hka, hi, hl, v, hc, rfl⟩
  · exact exec_withHost_suppressed hka
  · exact exec_kchar_failed ch hka hi
  · exact exec_kchar_strip hka hi hc
  · exact exec_kchar_invalid hka hi hc
  · rw [exec_kchar_symbol (s := withHost p c s) hka hi hc hl, ← shiftIn_withHost]
    rfl

/-- A command acts the same whatever the host has still to present (10_state.md R46). -/
theorem exec_withHost {i : Instr} {s t : State} (h : exec i s = .next t) :
    exec i (withHost p c s) = .next (withHost p c t) := by
  cases i with
  | kchar ch => exact exec_kchar_withHost h
  | kend =>
    rcases execKend_next h with ⟨hp, rfl⟩ | ⟨hka, rfl⟩
    · exact exec_withHost_suppressed hp
    · rw [exec_kend_open (s := withHost p c s) hka, kendBody_withHost]
  | mac =>
    rcases execMac_next h with ⟨hp, rfl⟩ | ⟨hk, hc, rfl⟩
    · exact exec_withHost_suppressed hp
    · exact exec_mac_valid (s := withHost p c s) hk hc
  | trunc =>
    rcases execTrunc_next h with ⟨hp, rfl⟩ | ⟨hd, rfl⟩
    · exact exec_withHost_suppressed hp
    · exact exec_trunc_valid (s := withHost p c s) hd
  | gen =>
    rcases execGen_next h with ⟨hp, rfl⟩ | ⟨hk, hc, rfl⟩
    · exact exec_withHost_suppressed hp
    · exact exec_gen_valid (s := withHost p c s) hk hc
  | peek sp k =>
    have hm : memRead sp k.toNat (withHost p c s) = memRead sp k.toNat s := by cases sp <;> rfl
    rcases execPeek_next h with ⟨b, hb, rfl⟩ | ⟨hn, rfl⟩
    · rw [exec, execPeek, hm, hb]; rfl
    · rw [exec, execPeek, hm, hn]; rfl
  | nop => cases h; rfl
  | clr => cases h; rfl
  | kinit => cases h; rfl
  | tload x => cases h; rfl
  | cload x => cases h; rfl

end

/-- A step that accepts a command's word executes the command. -/
theorem step_encode {i : Instr} (hw : i.WellFormed) {s t : State} (h : exec i s = .next t) (p : List HostMove) (c : Nat) :
    step (withHost (.command (encode i) :: p) c s) = .next (withHost p (c + 1) t) := by
  rw [step_command (withHost_pending _ _ _), execWord_legal (decode_encode hw), acceptWord_withHost, exec_withHost h]

/-- A run begins with a step. -/
theorem core_run_succ {s u : core.State} (h : core.step s = .next u) (n : Nat) : core.run (n + 1) s = core.run n u := by
  simp only [Host.Core.run, h]

/-- The run of a program's words, one step a word, is the run of its commands (30_encoding.md R91). -/
theorem run_movesOf {is : List Instr} (hw : ∀ i ∈ is, i.WellFormed) {s t : State} (h : runCommands is s = .next t)
    (c : Nat) : core.run is.length (withHost (movesOf is) c s) = .next (withHost [] (c + is.length) t) := by
  induction is generalizing s c with
  | nil => cases h; rfl
  | cons i is ih =>
    obtain ⟨hi, his⟩ := List.forall_mem_cons.1 hw
    rw [runCommands] at h
    cases hx : exec i s with
    | fault r => rw [hx] at h; cases h
    | refused r => rw [hx] at h; cases h
    | next u =>
      rw [hx] at h
      have hstep : core.step (withHost (movesOf (i :: is)) c s) = .next (withHost (movesOf is) (c + 1) u) :=
        step_encode hi hx (movesOf is) c
      rw [List.length_cons, core_run_succ hstep, show c + (is.length + 1) = c + 1 + is.length by omega]
      exact ih his h (c + 1)

end Sys2Proof.Machine
end

section
/-! The secret decoder as a run: the decoder's registers hold the key decoded so far (40_base32_decoder.md R107 to R110),
every symbol keeps that, and `KEND` makes the key block of it. -/

namespace Sys2Proof.Machine

/-! ## The key block register and the engine's chaining value during an ingest -/

/-- The blocks of a key of `n` bytes that have been compressed: the last block, even when full, is still pending
(40_base32_decoder.md R110). -/
def fullBlocks (n : Nat) : Nat := (n - 1) / 64

/-- The pending bytes of a key, and zeros after them. -/
def pendingBlock (key : List Byte) : List Byte :=
  key.drop (64 * fullBlocks key.length) ++ List.replicate (64 * (fullBlocks key.length + 1) - key.length) 0x00#8

/-- The key registers hold the bytes `key` of an open ingest (40_base32_decoder.md R108 to R110). -/
structure State.HoldsKey (s : State) (key : List Byte) : Prop where
  length : s.klen.toNat = key.length
  long : s.klong = decide (64 < key.length)
  fill : s.kfill.toNat = key.length - 64 * fullBlocks key.length
  chain : s.h = if 64 < key.length then sha1Blocks (fullBlocks key.length) sha1Iv key else zeroChain
  block : s.kblk.toList = pendingBlock key

/-- The bounds of the pending part. -/
theorem fullBlocks_bounds (n : Nat) : 64 * fullBlocks n ≤ n ∧ n ≤ 64 * (fullBlocks n + 1) := by
  unfold fullBlocks; omega

/-- A key of at most one block has no compressed block. -/
theorem fullBlocks_short {n : Nat} (h : n ≤ 64) : fullBlocks n = 0 := by
  unfold fullBlocks; omega

/-- A byte after a full block begins the next one. -/
theorem fullBlocks_succ_full {n : Nat} (h : n - 64 * fullBlocks n = 64) : fullBlocks (n + 1) = fullBlocks n + 1 := by
  unfold fullBlocks at *; omega

/-- A byte that fits leaves the compressed blocks as they are. -/
theorem fullBlocks_succ_room {n : Nat} (h : n - 64 * fullBlocks n ≠ 64) : fullBlocks (n + 1) = fullBlocks n := by
  unfold fullBlocks at *; omega

/-- Before the first byte the key registers are as `KINIT` leaves them. -/
theorem holdsKey_nil {s : State} (hl : s.klen = 0#64) (hg : s.klong = false) (hf : s.kfill = 0#7)
    (hh : s.h = zeroChain) (hb : s.kblk = zeroBlock) : s.HoldsKey [] where
  length := by rw [hl]; rfl
  long := by rw [hg]; rfl
  fill := by rw [hf]; rfl
  chain := by rw [hh]; rfl
  block := by rw [hb]; rfl

/-- A byte that fits is written over the first of the zeros. -/
theorem pendingBlock_append_room {key : List Byte} (b : Byte) (h : key.length - 64 * fullBlocks key.length ≠ 64) :
    pendingBlock (key ++ [b]) = (pendingBlock key).set (key.length - 64 * fullBlocks key.length) b := by
  obtain ⟨hlo, hhi⟩ := fullBlocks_bounds key.length
  have hz : 64 * (fullBlocks key.length + 1) - key.length =
      64 * (fullBlocks key.length + 1) - (key.length + 1) + 1 := by omega
  unfold pendingBlock
  rw [List.length_append, List.length_singleton, fullBlocks_succ_room h, List.drop_append_of_le_length hlo,
    List.set_append_right _ _ (by simp), hz, List.replicate_succ]
  simp

/-- A byte after a full block stands in a block of zeros. -/
theorem pendingBlock_append_full {key : List Byte} (b : Byte) (h : key.length - 64 * fullBlocks key.length = 64) :
    pendingBlock (key ++ [b]) = (List.replicate 64 0x00#8).set 0 b := by
  have hk : key.length = 64 * (fullBlocks key.length + 1) := by omega
  unfold pendingBlock
  rw [List.length_append, List.length_singleton, fullBlocks_succ_full h, List.drop_append_of_le_length hk.ge,
    List.drop_eq_nil_of_le hk.le, show 64 * (fullBlocks key.length + 1 + 1) - (key.length + 1) = 63 by omega]
  rfl

/-- A full pending block has no zeros after its bytes. -/
theorem pendingBlock_full {key : List Byte} (h : key.length - 64 * fullBlocks key.length = 64) :
    pendingBlock key = key.drop (64 * fullBlocks key.length) := by
  rw [pendingBlock, show 64 * (fullBlocks key.length + 1) - key.length = 0 by omega, List.replicate_zero,
    List.append_nil]

/-- A full pending block is compressed onto the blocks before it. -/
theorem chain_of_full {s : State} {key : List Byte} (hs : s.HoldsKey key)
    (h : key.length - 64 * fullBlocks key.length = 64) (b : Byte) :
    sha1Compress (if s.klong then s.h else sha1Iv) s.kblk =
      sha1Blocks (fullBlocks (key ++ [b]).length) sha1Iv (key ++ [b]) := by
  have hstart : (if s.klong then s.h else sha1Iv) = sha1Blocks (fullBlocks key.length) sha1Iv key := by
    rw [hs.long, hs.chain]
    by_cases hl : 64 < key.length
    · simp [hl]
    · rw [fullBlocks_short (by omega)]; simp [hl, sha1Blocks]
  have hblk : s.kblk = blockOf (key.drop (64 * fullBlocks key.length)) := by
    rw [← blockOf_toList s.kblk, hs.block, pendingBlock_full h]
  rw [List.length_append, List.length_singleton, fullBlocks_succ_full h, sha1Blocks_append (by omega), sha1Blocks_add,
    hstart, hblk]
  rfl

/-- The count of key bytes after one more, below the register's width. -/
theorem klen_succ_toNat {x : BitVec 64} (h : x.toNat + 1 < 2 ^ 64) : (x + 1#64).toNat = x.toNat + 1 := by
  rw [BitVec.toNat_add, BitVec.toNat_ofNat]; omega

section
variable {s : State} {key : List Byte} (hs : s.HoldsKey key) (b : Byte) (hlim : key.length + 1 < 2 ^ 64)
include hs hlim

/-- The count of a key's bytes after one more. -/
theorem State.HoldsKey.klen_succ : (s.klen + 1#64).toNat = (key ++ [b]).length := by
  rw [klen_succ_toNat (by rwa [hs.length]), hs.length, List.length_append, List.length_singleton]

/-- `key_push` into a full block (40_base32_decoder.md R110). -/
theorem keyPush_holdsKey_full (hf : s.kfill = 64#7) : (keyPush b s).HoldsKey (key ++ [b]) := by
  have hfull : key.length - 64 * fullBlocks key.length = 64 := by rw [← hs.fill, hf]; rfl
  have hlong : 64 < (key ++ [b]).length := by simp; omega
  rw [keyPush_full b hf]
  refine ⟨hs.klen_succ b hlim, ?_, ?_, ?_, ?_⟩
  · rw [decide_eq_true hlong]
  · simp [fullBlocks_succ_full hfull]; omega
  · rw [if_pos hlong]
    exact chain_of_full hs hfull b
  · rw [pendingBlock_append_full b hfull]
    rfl

/-- `key_push` into a block with room (40_base32_decoder.md R108). -/
theorem keyPush_holdsKey_room (hf : s.kfill ≠ 64#7) : (keyPush b s).HoldsKey (key ++ [b]) := by
  obtain ⟨hlo, hhi⟩ := fullBlocks_bounds key.length
  have hfill := hs.fill
  have hroom : key.length - 64 * fullBlocks key.length ≠ 64 := by
    rw [← hfill]
    exact fun h => hf (BitVec.eq_of_toNat_eq h)
  have hlong : 64 < (key ++ [b]).length ↔ 64 < key.length := by
    rw [List.length_append, List.length_singleton]; unfold fullBlocks at hroom; omega
  rw [keyPush_room b hf]
  refine ⟨hs.klen_succ b hlim, ?_, ?_, ?_, ?_⟩
  · rw [hs.long]; exact decide_eq_decide.2 hlong.symm
  · rw [BitVec.toNat_add, BitVec.toNat_ofNat, List.length_append, List.length_singleton, fullBlocks_succ_room hroom]
    omega
  · rw [if_congr hlong rfl rfl, List.length_append, List.length_singleton, fullBlocks_succ_room hroom,
      sha1Blocks_append hlo]
    exact hs.chain
  · rw [pendingBlock_append_room b hroom, ← hs.block, ← hfill]
    exact Vector.toList_setIfInBounds

/-- `key_push` adds its byte to the key held (40_base32_decoder.md R108, R110). -/
theorem keyPush_holdsKey : (keyPush b s).HoldsKey (key ++ [b]) := by
  by_cases hf : s.kfill = 64#7
  · exact keyPush_holdsKey_full hs b hlim hf
  · exact keyPush_holdsKey_room hs b hlim hf

end

/-! ## `KEND` makes the key block -/

/-- The key block made of a 20-byte digest. -/
theorem digestBlock_toList {bytes : List Byte} (h : bytes.length = 20) :
    (digestBlock bytes).toList = bytes ++ List.replicate 44 0x00#8 :=
  blockOf_toList_of_length (by simp [h])

/-- Of a short key the pending block is its key block (42_hmac_sha1.md R150). -/
theorem pendingBlock_short {key : List Byte} (h : key.length ≤ 64) : pendingBlock key = keyBlock key := by
  simp [pendingBlock, keyBlock, fullBlocks_short h, h]

/-- The pending bytes of a key held. -/
theorem State.HoldsKey.take_pending {s : State} {key : List Byte} (hs : s.HoldsKey key) :
    s.kblk.toList.take s.kfill.toNat = key.drop (64 * fullBlocks key.length) := by
  rw [hs.block, hs.fill, pendingBlock, List.take_append_of_le_length (by simp)]
  exact List.take_of_length_le (by simp)

/-- `key_finish` completes the hash of a long key (40_base32_decoder.md R111). -/
theorem keyFinish_sha1 {s : State} {key : List Byte} (hs : s.HoldsKey key) (hl : 64 < key.length) :
    chainBytes (sha1Blocks ((keyTail s).length / 64) s.h (keyTail s)) = sha1 key := by
  obtain ⟨hlo, hhi⟩ := fullBlocks_bounds key.length
  have hpad : sha1Pad s.kfill.toNat s.klen.toNat = sha1Pad (key.length % 64) key.length := by
    unfold sha1Pad
    rw [hs.length, hs.fill, show (key.length - 64 * fullBlocks key.length) % 64 = key.length % 64 % 64 by omega]
  have htail : keyTail s = (key ++ sha1Pad (key.length % 64) key.length).drop (64 * fullBlocks key.length) := by
    rw [keyTail, hs.take_pending, hpad, List.drop_append_of_le_length hlo]
  have hh : s.h = sha1Blocks (fullBlocks key.length) sha1Iv (key ++ sha1Pad (key.length % 64) key.length) := by
    rw [hs.chain, if_pos hl, sha1Blocks_append hlo]
  unfold sha1
  rw [htail, hh, ← sha1Blocks_add, List.length_drop]
  congr 2
  rw [List.length_append]
  omega

/-! ## The ingest -/

/-- An open ingest that has taken the symbols `vs`, none of its characters invalid (40_base32_decoder.md R107, R109,
R110). -/
structure State.Ingested (s : State) (vs : List Symbol) : Prop where
  opened : s.status.ka = true
  valid : s.status.isf = false
  bits : s.nb.toNat = 5 * vs.length % 8
  live : s.acc.toNat = bitsValue ((symbolsBits vs).drop (8 * (5 * vs.length / 8)))
  seen : s.kne = !vs.isEmpty
  key : s.HoldsKey (symbolsKey vs)

/-- Two states that differ in the decoder's registers at most. -/
def SameButDecoder (s t : State) : Prop :=
  t = { s with
    acc := t.acc, nb := t.nb, kne := t.kne, kblk := t.kblk, kfill := t.kfill, klen := t.klen
    klong := t.klong, h := t.h }

theorem SameButDecoder.refl (s : State) : SameButDecoder s s := rfl

theorem SameButDecoder.trans {s t u : State} (h1 : SameButDecoder s t) (h2 : SameButDecoder t u) :
    SameButDecoder s u := by
  unfold SameButDecoder at *
  rw [h1] at h2
  exact h2

theorem SameButDecoder.status {s t : State} (h : SameButDecoder s t) : t.status = s.status := by
  rw [h]

/-- `key_push` writes the decoder's registers alone. -/
theorem keyPush_sameButDecoder (b : Byte) {s t : State} (h : SameButDecoder s t) : SameButDecoder s (keyPush b t) := by
  refine h.trans ?_
  by_cases hf : t.kfill = 64#7
  · rw [keyPush_full b hf]; rfl
  · rw [keyPush_room b hf]; rfl

/-- `shift_in` writes the decoder's registers alone. -/
theorem shiftIn_sameButDecoder (v : Symbol) (s : State) : SameButDecoder s (shiftIn v { s with kne := true }) := by
  cases h : emitsByte { s with kne := true }
  · rw [shiftIn_noByte v h]; rfl
  · rw [shiftIn_byte v h]
    exact keyPush_sameButDecoder _ (.refl _)

/-- The live bits of an ingest are fewer than 8, and `ACC` has no other. -/
theorem State.Ingested.acc_lt {s : State} {vs : List Symbol} (hs : s.Ingested vs) : s.acc.toNat < 2 ^ 7 := by
  have h := bitsValue_lt ((symbolsBits vs).drop (8 * (5 * vs.length / 8)))
  rw [← hs.live] at h
  exact h.trans_le (Nat.pow_le_pow_right (by omega) (by simp; omega))

/-- `KINIT` opens an ingest that has taken nothing. -/
theorem execKinit_ingested {s t : State} (h : exec .kinit s = .next t) : t.Ingested [] := by
  cases h
  exact ⟨rfl, rfl, rfl, rfl, rfl, holdsKey_nil rfl rfl rfl rfl rfl⟩

/-- The bit count of an ingest is in its range (10_state.md R23). -/
theorem State.Ingested.nb_le {s : State} {vs : List Symbol} (hs : s.Ingested vs) : s.nb.toNat ≤ 7 := by
  have := hs.bits
  omega

/-- The eight oldest bits of the shift register, as a number (40_base32_decoder.md R106). -/
theorem emittedByte_eq {s : State} {vs : List Symbol} (hs : s.Ingested vs) (h3 : 3 ≤ s.nb.toNat) (v : Symbol) :
    (accShifted s.acc v >>> (s.nb + 5#4 - 8#4).toNat).setWidth 8 =
      BitVec.ofNat 8 ((s.acc.toNat * 32 + v.toNat) / 2 ^ (s.nb.toNat - 3)) := by
  apply BitVec.eq_of_toNat_eq
  rw [BitVec.toNat_setWidth, BitVec.toNat_ushiftRight, accShifted_toNat v hs.acc_lt, nbLeft_toNat hs.nb_le h3,
    Nat.shiftRight_eq_div_pow, BitVec.toNat_ofNat]

/-- A symbol that completes no byte enters the shift register (40_base32_decoder.md R106, R107). -/
theorem shiftIn_ingested_noByte {s : State} {vs : List Symbol} (hs : s.Ingested vs) (v : Symbol)
    (h3 : ¬ 3 ≤ s.nb.toNat) : (shiftIn v { s with kne := true }).Ingested (vs ++ [v]) := by
  have hbits := hs.bits
  have hemit : emitsByte { s with kne := true } = false :=
    Bool.eq_false_of_not_eq_true fun h => h3 ((emitsByte_iff hs.nb_le).1 h)
  rw [shiftIn_noByte v hemit]
  refine ⟨hs.opened, hs.valid, ?_, ?_, by simp, ?_⟩
  · simp only [nbShifted_toNat hs.nb_le, List.length_append, List.length_singleton]
    omega
  · rw [liveBits_noByte vs v (by omega), ← hs.live]
    exact accShifted_toNat v hs.acc_lt
  · rw [symbolsKey_noByte vs v (by omega)]
    exact ⟨hs.key.length, hs.key.long, hs.key.fill, hs.key.chain, hs.key.block⟩

/-- A symbol that completes a byte adds it to the key (40_base32_decoder.md R106, R107). -/
theorem shiftIn_ingested_byte {s : State} {vs : List Symbol} (hs : s.Ingested vs) (v : Symbol)
    (h3 : 3 ≤ s.nb.toNat) (hlim : (symbolsKey vs).length + 1 < 2 ^ 64) :
    (shiftIn v { s with kne := true }).Ingested (vs ++ [v]) := by
  have hbits := hs.bits
  have hleft := nbLeft_toNat hs.nb_le h3
  have hleft12 : (s.nb + 5#4 - 8#4).toNat < 12 := by omega
  rw [shiftIn_byte v ((emitsByte_iff (s := { s with kne := true }) hs.nb_le).2 h3)]
  refine ⟨by rw [keyPush_status]; exact hs.opened, by rw [keyPush_status]; exact hs.valid, ?_, ?_,
    by rw [keyPush_kne]; simp, ?_⟩
  · rw [keyPush_nb, List.length_append, List.length_singleton]
    simp only [hleft]
    omega
  · rw [keyPush_acc, liveBits_byte vs v (by omega), ← hs.live, ← accShifted_toNat v hs.acc_lt, ← hs.bits, ← hleft]
    exact keepLive_toNat (accShifted s.acc v) hleft12
  · rw [symbolsKey_byte vs v (by omega), ← hs.live, ← hs.bits, ← emittedByte_eq hs h3 v]
    refine keyPush_holdsKey ?_ _ hlim
    exact ⟨hs.key.length, hs.key.long, hs.key.fill, hs.key.chain, hs.key.block⟩

/-- One more symbol of an ingest enters the registers (40_base32_decoder.md R106, R107). -/
theorem shiftIn_ingested {s : State} {vs : List Symbol} (hs : s.Ingested vs) (v : Symbol)
    (hlim : (symbolsKey (vs ++ [v])).length < 2 ^ 64) : (shiftIn v { s with kne := true }).Ingested (vs ++ [v]) := by
  by_cases h3 : 3 ≤ s.nb.toNat
  · have hbits := hs.bits
    rw [symbolsKey_byte vs v (by omega), List.length_append, List.length_singleton] at hlim
    exact shiftIn_ingested_byte hs v h3 hlim
  · exact shiftIn_ingested_noByte hs v h3

/-- Below the limit of R117 a symbol of an ingest is not refused. -/
theorem State.Ingested.not_reachesKeyLimit {s : State} {vs : List Symbol} (hs : s.Ingested vs) (v : Symbol)
    (hlim : (symbolsKey (vs ++ [v])).length < 2 ^ 61) : reachesKeyLimit s = false := by
  rw [reachesKeyLimit, Bool.and_eq_false_imp]
  intro hemit
  have h3 := (emitsByte_iff hs.nb_le).1 hemit
  have hbits := hs.bits
  rw [symbolsKey_byte vs v (by omega), List.length_append, List.length_singleton, ← hs.key.length] at hlim
  exact decide_eq_false (Nat.not_le.2 hlim)

/-! ## The characters of a secret -/

theorem feed_cons {ch : Byte} {cs : List Byte} {s t : State} (h : exec (.kchar ch) s = .next t) :
    feed (ch :: cs) s = feed cs t := by
  rw [feed, List.map_cons, runCommands_cons h, feed]

theorem feed_append {cs ds : List Byte} {s t : State} (h : feed cs s = .next t) : feed (cs ++ ds) s = feed ds t := by
  rw [feed, List.map_append, runCommands_append _ _ _ _ h, feed]

/-- A failed ingest takes no character (40_base32_decoder.md R115). -/
theorem feed_failed (cs : List Byte) {s : State} (hka : s.status.ka = true) (hi : s.status.isf = true) :
    feed cs s = .next s := by
  induction cs with
  | nil => rfl
  | cons c cs ih => rw [feed_cons (exec_kchar_failed c hka hi), ih]

/-- Valid characters enter an ingest one by one (40_base32_decoder.md R107). -/
theorem feed_ingested {cs : List Byte} {us vs : List Symbol} {s : State} (hs : s.Ingested us)
    (hcs : secretSymbols cs = some vs) (hlim : (symbolsKey (us ++ vs)).length < 2 ^ 61) :
    ∃ t, feed cs s = .next t ∧ t.Ingested (us ++ vs) ∧ SameButDecoder s t := by
  induction cs generalizing us vs s with
  | nil =>
    cases hcs
    exact ⟨s, rfl, by simpa using hs, .refl s⟩
  | cons c cs ih =>
    rw [secretSymbols] at hcs
    cases hc : charClass c with
    | strip =>
      rw [hc] at hcs
      rw [feed_cons (exec_kchar_strip hs.opened hs.valid hc)]
      exact ih hs hcs hlim
    | invalid => rw [hc] at hcs; cases hcs
    | symbol v =>
      rw [hc] at hcs
      obtain ⟨ws, hws, rfl⟩ := Option.map_eq_some_iff.1 hcs
      have hone : (symbolsKey (us ++ [v])).length < 2 ^ 61 := by
        rw [symbolsKey_length] at hlim ⊢
        simp only [List.length_append, List.length_cons, List.length_nil] at hlim ⊢
        omega
      obtain ⟨t, hrun, ht, hframe⟩ := ih (shiftIn_ingested hs v (by omega)) hws (by rwa [List.append_assoc])
      refine ⟨t, ?_, by rwa [List.append_assoc] at ht, (shiftIn_sameButDecoder v s).trans hframe⟩
      rw [feed_cons (exec_kchar_symbol hs.opened hs.valid hc (hs.not_reachesKeyLimit v hone)), hrun]

/-- A secret with an invalid character is valid up to its first one (40_base32_decoder.md R115). -/
theorem secretSymbols_none {cs : List Byte} (h : secretSymbols cs = none) :
    ∃ good bad rest vs, cs = good ++ bad :: rest ∧ secretSymbols good = some vs ∧ charClass bad = .invalid := by
  induction cs with
  | nil => cases h
  | cons c cs ih =>
    rw [secretSymbols] at h
    cases hc : charClass c with
    | invalid => exact ⟨[], c, cs, [], rfl, rfl, hc⟩
    | strip =>
      rw [hc] at h
      obtain ⟨good, bad, rest, vs, rfl, hvs, hb⟩ := ih h
      exact ⟨c :: good, bad, rest, vs, rfl, by rw [secretSymbols, hc]; exact hvs, hb⟩
    | symbol v =>
      rw [hc] at h
      obtain ⟨good, bad, rest, vs, rfl, hvs, hb⟩ := ih (Option.map_eq_none_iff.1 h)
      exact ⟨c :: good, bad, rest, v :: vs, rfl, by rw [secretSymbols, hc]; simp [hvs], hb⟩

/-- A secret has no more symbols than characters. -/
theorem secretSymbols_length_le {cs : List Byte} {vs : List Symbol} (h : secretSymbols cs = some vs) :
    vs.length ≤ cs.length := by
  induction cs generalizing vs with
  | nil => cases h; exact le_rfl
  | cons c cs ih =>
    rw [secretSymbols] at h
    cases hc : charClass c with
    | invalid => rw [hc] at h; cases h
    | strip =>
      rw [hc] at h
      exact (ih h).trans (Nat.le_succ _)
    | symbol v =>
      rw [hc] at h
      obtain ⟨ws, hws, rfl⟩ := Option.map_eq_some_iff.1 h
      exact Nat.succ_le_succ (ih hws)

/-- A secret below the limit of R117 decodes to a key below it. -/
theorem symbolsKey_length_lt {cs : List Byte} {vs : List Symbol} (h : secretSymbols cs = some vs)
    (hlim : cs.length < 2 ^ 61) : (symbolsKey vs).length < 2 ^ 61 := by
  have := secretSymbols_length_le h
  rw [symbolsKey_length]
  omega

/-- A secret with an invalid character fails its ingest. -/
theorem feed_invalid {cs : List Byte} {s : State} (hs : s.Ingested []) (hcs : secretSymbols cs = none)
    (hlim : cs.length < 2 ^ 61) :
    ∃ t, feed cs s = .next (setIsf true t) ∧ SameButDecoder s t := by
  obtain ⟨good, bad, rest, vs, rfl, hvs, hbad⟩ := secretSymbols_none hcs
  rw [List.length_append] at hlim
  obtain ⟨t, hrun, ht, hframe⟩ := feed_ingested hs hvs (symbolsKey_length_lt hvs (by omega))
  refine ⟨t, ?_, hframe⟩
  rw [feed_append hrun, feed_cons (exec_kchar_invalid ht.opened ht.valid hbad)]
  exact feed_failed rest ht.opened rfl

/-! ## `SECRET` -/

/-- The decode of a secret is the key of its symbols, at least one (40_base32_decoder.md R100, R114). -/
theorem b32Decode_eq_some_iff {secret key : List Byte} :
    b32Decode secret = some key ↔ ∃ vs, secretSymbols secret = some vs ∧ vs ≠ [] ∧ symbolsKey vs = key := by
  unfold b32Decode
  cases secretSymbols secret with
  | none => simp
  | some vs => cases vs <;> simp

/-- A secret has no decode when a character is invalid or there is no symbol. -/
theorem b32Decode_eq_none_iff {secret : List Byte} :
    b32Decode secret = none ↔ secretSymbols secret = none ∨ secretSymbols secret = some [] := by
  unfold b32Decode
  cases secretSymbols secret with
  | none => simp
  | some vs => cases vs <;> simp

/-- `SECRET` is `KINIT`, the characters, and `KEND` (30_encoding.md R89). -/
theorem runCommands_secretProgram {secret : List Byte} {s s1 t : State} (hk : exec .kinit s = .next s1)
    (hf : feed secret s1 = .next t) (hka : t.status.ka = true) :
    runCommands (secretProgram secret) s = .next (kendBody t) := by
  rw [secretProgram, runCommands_cons hk, runCommands_append _ _ _ _ hf, runCommands_cons (exec_kend_open hka),
    runCommands]

/-- `KEND` of an ingest with symbols makes the key block of the key (40_base32_decoder.md R112; 42_hmac_sha1.md R150). -/
theorem kendBody_ingested {s : State} {vs : List Symbol} (hs : s.Ingested vs) (hne : vs ≠ []) :
    ∃ k : Block, k.toList = keyBlock (symbolsKey vs) ∧ kendBody s =
      { s with
        acc := 0#12, nb := 0#4, kfill := 0#7, h := zeroChain, kblk := k
        status := { s.status with ka := false, kv := true } } := by
  have hkne : s.kne = true := by rw [hs.seen]; simpa using hne
  by_cases hl : 64 < (symbolsKey vs).length
  · refine ⟨_, ?_, kendBody_long hs.valid hkne (by rw [hs.key.long]; simpa using hl)⟩
    rw [digestBlock_toList (chainBytes_length _), keyFinish_sha1 hs.key hl, keyBlock, if_neg (by simpa using hl)]
    rfl
  · have hh : s.h = zeroChain := by rw [hs.key.chain, if_neg hl]
    refine ⟨s.kblk, ?_, ?_⟩
    · rw [hs.key.block, pendingBlock_short (by omega)]
    · rw [kendBody_short hs.valid hkne (by rw [hs.key.long]; simpa using hl), ← hh]

/-- After `SECRET` of a valid secret the key block is that of its decode (40_base32_decoder.md R112, R113). -/
theorem secretProgram_valid (s : State) {secret key : List Byte} (h : b32Decode secret = some key)
    (hlim : key.length < 2 ^ 61) :
    ∃ t, runCommands (secretProgram secret) s = .next t ∧ t.kblk.toList = keyBlock key ∧
      t.status = { s.status with kv := true, dv := false, ov := false, ka := false, isf := false } := by
  obtain ⟨vs, hvs, hne, rfl⟩ := b32Decode_eq_some_iff.1 h
  obtain ⟨u, hrun, hu, hframe⟩ := feed_ingested (execKinit_ingested (execKinit_eq s)) hvs hlim
  obtain ⟨k, hk, hend⟩ := kendBody_ingested hu hne
  refine ⟨_, runCommands_secretProgram (execKinit_eq s) hrun hu.opened, ?_, ?_⟩
  · rw [hend]; exact hk
  · rw [hend, hframe.status]

/-- After `SECRET` of an invalid or empty secret there is no key and `ISF` is set (40_base32_decoder.md R114, R115). -/
theorem secretProgram_invalid (s : State) {secret : List Byte} (h : b32Decode secret = none)
    (hlim : secret.length < 2 ^ 61) :
    ∃ t, runCommands (secretProgram secret) s = .next t ∧
      t.status = { s.status with kv := false, dv := false, ov := false, ka := false, isf := true } := by
  have hs := execKinit_ingested (execKinit_eq s)
  rcases b32Decode_eq_none_iff.1 h with hn | he
  · obtain ⟨u, hrun, hframe⟩ := feed_invalid hs hn hlim
    have hka : (setIsf true u).status.ka = true := by rw [setIsf_status, hframe.status]
    refine ⟨_, runCommands_secretProgram (execKinit_eq s) hrun hka, ?_⟩
    rw [kendBody_invalid rfl, setIsf_status, hframe.status]
  · obtain ⟨u, hrun, hu, hframe⟩ := feed_ingested hs he (by decide)
    refine ⟨_, runCommands_secretProgram (execKinit_eq s) hrun hu.opened, ?_⟩
    rw [kendBody_empty hu.valid hu.seen, hframe.status]

end Sys2Proof.Machine
end

section
/-! The function the block realises: `TOTP "secret", t` computes the document's `generateCode` (00_scope.md R16, R17). -/

namespace Sys2Proof.Machine

/-! ## The digest of a key block is HMAC-SHA1 -/

/-- The inner hash's second block is the message and its padding (42_hmac_sha1.md R154). -/
theorem innerTail_eq (m : Msg) : innerTail m = blockOf (m.toList ++ sha1Pad 8 72) := by
  have hpad : sha1Pad 8 72 = [0x80#8] ++ List.replicate 53 0x00#8 ++ [0x02#8, 0x40#8] := by decide
  rw [innerTail, hpad, List.append_assoc, List.append_assoc, List.append_assoc]

/-- The outer hash's second block is the inner digest and its padding (42_hmac_sha1.md R154). -/
theorem outerTail_eq (inner : List Byte) : outerTail inner = blockOf (inner ++ sha1Pad 20 84) := by
  have hpad : sha1Pad 20 84 = [0x80#8] ++ List.replicate 41 0x00#8 ++ [0x02#8, 0xA0#8] := by decide
  rw [outerTail, hpad, List.append_assoc, List.append_assoc, List.append_assoc]

/-- The inner digest is the hash of the inner key and the message (42_hmac_sha1.md R151, R152). -/
theorem innerDigest_eq_sha1 (k : Block) (c : Counter) :
    innerDigest k c = sha1 (xorPad Config.ipad k.toList ++ (be64 c).toList) := by
  rw [sha1_padKey (.inl (Msg.length_toList _)), Msg.length_toList, innerDigest_eq, innerTail_eq]

theorem innerDigest_length (k : Block) (c : Counter) : (innerDigest k c).length = 20 := by
  rw [innerDigest_eq_sha1, sha1_length]

/-- On the key block of a key the digest is HMAC-SHA1 of the serialised counter (42_hmac_sha1.md R151, R152). -/
theorem macDigest_toList {k : Block} {key : List Byte} (hk : k.toList = keyBlock key) (c : Counter) :
    (macDigest k c).toList = hmacSha1 key (be64 c).toList := by
  rw [macDigest_eq, chainDigest_toList, outerTail_eq, hmacSha1_eq, ← hk, ← innerDigest_eq_sha1,
    sha1_padKey (.inr (innerDigest_length k c)), innerDigest_length]

/-! ## The code of a digest -/

/-- The digits of a digest are the document's steps 4 and 5 (00_scope.md R16; 43_truncator.md R171). -/
theorem digitsOf_truncBin_toList (d : Digest) : (digitsOf (codeOf (truncBin d))).toList = digestCode d.toList := by
  rw [digitsOf_toList _ (by have := codeOf_le (truncBin d); omega), codeOf_toNat, truncBin_toNat]
  rfl

/-! ## `TLOAD t` and `GEN` -/

theorem exec_tload (x : Word64) (s : State) : exec (.tload x) s = .next (loadCounter (counterOf x) s) := rfl

/-- With a key, `TLOAD t; GEN` makes the code of the key and the time (43_truncator.md R177). -/
theorem runCommands_tload_gen_valid {s : State} {key : List Byte} (hkv : s.status.kv = true)
    (hk : s.kblk.toList = keyBlock key) (x : Word64) :
    ∃ t, runCommands [.tload x, .gen] s = .next t ∧
      t.digits.toList = digestCode (hmacSha1 key (be64 (counterOf x)).toList) ∧
      t.kblk = s.kblk ∧ t.status = { s.status with cv := true, dv := true, ov := true } := by
  have hgen := exec_gen_valid (s := loadCounter (counterOf x) s) hkv rfl
  refine ⟨_, (runCommands_cons (exec_tload x s) _).trans (runCommands_cons hgen []), ?_, by simp, by simp⟩
  rw [truncCore_digits, digitsOf_truncBin_toList, macCore_digest, macDigest_toList (by simpa using hk)]
  simp

/-- Without a key, `TLOAD t; GEN` is a sequence error and leaves no code (60_exceptions.md R203). -/
theorem runCommands_tload_gen_noKey {s : State} (hkv : s.status.kv = false) (x : Word64) :
    ∃ t, runCommands [.tload x, .gen] s = .next t ∧ t.digits = Vector.replicate 6 0x00#8 ∧
      t.status = { s.status with cv := true, dv := false, ov := false, sqe := true } := by
  have hgen : exec .gen (loadCounter (counterOf x) s) = .next (setSqe true (loadCounter (counterOf x) s)) :=
    exec_suppressed (by simp [precond, hkv])
  exact ⟨_, (runCommands_cons (exec_tload x s) _).trans (runCommands_cons hgen []), by simp, by simp⟩

/-! ## `TOTP "secret", t` -/

/-- The document's code exists exactly for the secrets that decode (00_scope.md R16). -/
theorem generateCode_eq_of_decode {secret key : List Byte} (h : b32Decode secret = some key) (x : Word64) :
    generateCode secret x = some (digestCode (hmacSha1 key (be64 (counterOf x)).toList)) := by
  rw [generateCode, h]
  rfl

theorem generateCode_eq_none_of_decode {secret : List Byte} (h : b32Decode secret = none) (x : Word64) :
    generateCode secret x = none := by
  rw [generateCode, h]
  rfl

/-- The key of a secret is not longer than the secret. -/
theorem b32Decode_length_lt {secret key : List Byte} (h : b32Decode secret = some key)
    (hlim : secret.length < 2 ^ 61) : key.length < 2 ^ 61 := by
  obtain ⟨vs, hvs, -, rfl⟩ := b32Decode_eq_some_iff.1 h
  exact symbolsKey_length_lt hvs hlim

/-- `TOTP` of a secret that decodes makes the document's code, from any state (00_scope.md R17). -/
theorem totpProgram_valid (s : State) {secret key : List Byte} (x : Word64) (h : b32Decode secret = some key)
    (hlim : secret.length < 2 ^ 61) :
    ∃ t, runCommands (totpProgram secret x) s = .next t ∧ generateCode secret x = some t.digits.toList ∧
      t.status = { s.status with kv := true, cv := true, dv := true, ov := true, ka := false, isf := false } := by
  obtain ⟨u, hsecret, hkblk, hstatus⟩ := secretProgram_valid s h (b32Decode_length_lt h hlim)
  obtain ⟨t, hgen, hdigits, -, ht⟩ := runCommands_tload_gen_valid (by rw [hstatus]) hkblk x
  refine ⟨t, ?_, ?_, ?_⟩
  · rw [totpProgram, runCommands_append _ _ _ _ hsecret, hgen]
  · rw [generateCode_eq_of_decode h, hdigits]
  · rw [ht, hstatus]

/-- `TOTP` of a secret that does not decode makes no code, from any state (60_exceptions.md R201, R202). -/
theorem totpProgram_invalid (s : State) {secret : List Byte} (x : Word64) (h : b32Decode secret = none)
    (hlim : secret.length < 2 ^ 61) :
    ∃ t, runCommands (totpProgram secret x) s = .next t ∧ t.digits = Vector.replicate 6 0x00#8 ∧
      t.status = { s.status with
        kv := false, cv := true, dv := false, ov := false, ka := false, isf := true, sqe := true } := by
  obtain ⟨u, hsecret, hstatus⟩ := secretProgram_invalid s h hlim
  obtain ⟨t, hgen, hdigits, ht⟩ := runCommands_tload_gen_noKey (by rw [hstatus]) x
  refine ⟨t, ?_, hdigits, ?_⟩
  · rw [totpProgram, runCommands_append _ _ _ _ hsecret, hgen]
  · rw [ht, hstatus]

/-! ## The run from reset -/

/-- The commands of `TOTP` have words (30_encoding.md R87, R89). -/
theorem totpProgram_wellFormed (secret : List Byte) (x : Word64) : ∀ i ∈ totpProgram secret x, i.WellFormed := by
  intro i hi
  simp only [totpProgram, secretProgram, List.mem_append, List.mem_cons, List.mem_map, List.not_mem_nil, or_false] at hi
  rcases hi with (rfl | ⟨ch, -, rfl⟩ | rfl) | rfl | rfl <;> rfl

/-- `TOTP` of `n` characters is `n + 4` commands (30_encoding.md R89). -/
theorem totpProgram_length (secret : List Byte) (x : Word64) : (totpProgram secret x).length = secret.length + 4 := by
  simp [totpProgram, secretProgram]

/-- The run of the words of `TOTP` from reset ends where its commands end. -/
theorem run_totpProgram {secret : List Byte} {x : Word64} {t : State}
    (h : runCommands (totpProgram secret x) State.reset = .next t) :
    core.run (secret.length + 4) { State.reset with pending := movesOf (totpProgram secret x) } =
      .next (withHost [] (secret.length + 4) t) := by
  have hrun := run_movesOf (totpProgram_wellFormed secret x) h 0
  rw [totpProgram_length, Nat.zero_add] at hrun
  exact hrun

/-- Settles O50: the words run as their commands do, and `SECRET`, `TLOAD`, `GEN` decode, count and compute as the
document's steps. -/
theorem totpComputesGenerateCode : Obligations.TotpComputesGenerateCode := by
  intro secret x hlim
  cases hdec : b32Decode secret with
  | some key =>
    obtain ⟨t, hrun, hcode, hstatus⟩ := totpProgram_valid State.reset x hdec hlim
    refine ⟨_, run_totpProgram hrun, ?_⟩
    rw [hcode, withHost_status, hstatus]
    exact ⟨rfl, rfl⟩
  | none =>
    obtain ⟨t, hrun, hdigits, hstatus⟩ := totpProgram_invalid State.reset x hdec hlim
    refine ⟨_, run_totpProgram hrun, ?_⟩
    rw [generateCode_eq_none_of_decode hdec, withHost_status, hstatus]
    exact ⟨rfl, rfl, rfl, hdigits⟩

end Sys2Proof.Machine
end

section
/-! The invariant of the block (10_state.md R49): what it does not speak of, what it comes to where there is no key or no
result, and that every command keeps it. -/

namespace Sys2Proof.Machine

/-! ## What the invariant does not speak of -/

/-- `t` is `s` but for `SQE`, `ILL`, `RDATA` and the host's side of the port. -/
def SameBlock (s t : State) : Prop :=
  t = { s with
    rdata := t.rdata, status := { s.status with sqe := t.status.sqe, ill := t.status.ill }
    pending := t.pending, cp := t.cp }

/-- `t` has the decoder's registers and the `KA` of `s`. -/
def SameDecoder (s t : State) : Prop :=
  t = { s with
    ctr := t.ctr, digest := t.digest, offset := t.offset, bin := t.bin, code := t.code, digits := t.digits
    rdata := t.rdata, status := { t.status with ka := s.status.ka }, pending := t.pending, cp := t.cp }

/-- `t` has the counter, the digest, the code and their flags of `s`. -/
def SameResults (s t : State) : Prop :=
  t = { t with
    ctr := s.ctr, digest := s.digest, offset := s.offset, bin := s.bin, code := s.code, digits := s.digits
    status := { t.status with cv := s.status.cv, dv := s.status.dv, ov := s.status.ov } }

theorem SameBlock.sameDecoder {s t : State} (h : SameBlock s t) : SameDecoder s t := by
  rw [h]; rfl

theorem State.DecoderInv.of_sameDecoder {s t : State} (hs : s.DecoderInv) (h : SameDecoder s t) : t.DecoderInv := by
  rw [h]; exact ⟨hs.live, hs.idle, hs.fill, hs.noSymbol⟩

theorem State.KeyInv.of_sameDecoder {s t : State} (hs : s.KeyInv) (h : SameDecoder s t) : t.KeyInv := by
  rw [h]; exact ⟨hs.limit, hs.long, hs.chain, hs.pendingShort, hs.pendingLong⟩

theorem State.FlagInv.of_sameBlock {s t : State} (hs : s.FlagInv) (h : SameBlock s t) : t.FlagInv := by
  rw [h]
  exact ⟨hs.key, hs.keyZeros, hs.counter, hs.digestValid, hs.digestStale, hs.codeValid, hs.codeStale, hs.codeRange,
    hs.untouched⟩

/-- The invariant does not speak of `SQE`, `ILL`, `RDATA` and the host's side. -/
theorem State.Inv.of_sameBlock {s t : State} (hs : s.Inv) (h : SameBlock s t) : t.Inv :=
  ⟨hs.decoder.of_sameDecoder h.sameDecoder, hs.keyLength.of_sameDecoder h.sameDecoder, hs.flags.of_sameBlock h⟩

/-! ## What the flags promise, in parts -/

/-- What the flags promise of the key and the counter (10_state.md R49 items 6, 7, 11). -/
structure State.KeyPromise (s : State) : Prop where
  key : s.status.kv = true → s.status.ka = false ∧ s.status.isf = false ∧ s.kne = true
  keyZeros : s.status.kv = true → ∀ (i : Nat) (h : i < 64),
    (if s.klong then 20 else s.klen.toNat) ≤ i → s.kblk[i] = 0x00#8
  counter : s.status.cv = false → s.ctr = 0#64
  untouched : s.status.ka = false → s.status.kv = false → s.status.isf = false →
    s.kblk = zeroBlock ∧ s.klen = 0#64 ∧ s.klong = false ∧ s.kne = false

/-- The state after an invalidation of the code (10_state.md R42). -/
structure State.NoCode (s : State) : Prop where
  ov : s.status.ov = false
  offset : s.offset = 0#4
  bin : s.bin = 0#31
  code : s.code = 0#20
  digits : s.digits = Vector.replicate 6 0x00#8

/-- The state after an invalidation of the digest (10_state.md R43). -/
structure State.NoDigest (s : State) : Prop where
  dv : s.status.dv = false
  digest : s.digest = Vector.replicate 20 0x00#8
  noCode : s.NoCode

theorem State.NoDigest.of_sameResults {s t : State} (hs : s.NoDigest) (h : SameResults s t) : t.NoDigest := by
  rw [h]
  exact ⟨hs.dv, hs.digest, hs.noCode.ov, hs.noCode.offset, hs.noCode.bin, hs.noCode.code, hs.noCode.digits⟩

theorem State.FlagInv.keyPromise {s : State} (hs : s.FlagInv) : s.KeyPromise :=
  ⟨hs.key, hs.keyZeros, hs.counter, hs.untouched⟩

/-- Without a valid key there is neither a digest nor a code (10_state.md R39). -/
theorem State.FlagInv.noDigest {s : State} (hs : s.FlagInv) (hkv : s.status.kv = false) : s.NoDigest := by
  have hdv : s.status.dv = false := by
    by_contra h
    obtain ⟨hk, -, -⟩ := hs.digestValid (Bool.eq_true_of_not_eq_false h)
    simp [hkv] at hk
  have hov : s.status.ov = false := by
    by_contra h
    obtain ⟨hd, -⟩ := hs.codeValid (Bool.eq_true_of_not_eq_false h)
    simp [hdv] at hd
  obtain ⟨ho, hb, hc, hds⟩ := hs.codeStale hov
  exact ⟨hdv, hs.digestStale hdv, hov, ho, hb, hc, hds⟩

/-- A valid key rules out an open ingest, so an open ingest has no valid key (10_state.md R39). -/
theorem State.KeyPromise.kv_of_ka {s : State} (hs : s.KeyPromise) (hka : s.status.ka = true) : s.status.kv = false := by
  by_contra h
  obtain ⟨hk, -, -⟩ := hs.key (Bool.eq_true_of_not_eq_false h)
  simp [hka] at hk

/-- While an ingest is open or has failed nothing is promised of the key. -/
theorem State.keyPromise_of_noKey {s : State} (hkv : s.status.kv = false)
    (hopen : s.status.ka = true ∨ s.status.isf = true) (hctr : s.status.cv = false → s.ctr = 0#64) : s.KeyPromise := by
  refine ⟨fun h => ?_, fun h => ?_, hctr, fun hka _ hi => ?_⟩
  · simp [hkv] at h
  · simp [hkv] at h
  · simp [hka, hi] at hopen

/-- Without a code, the flags' promises are those of the key and of the digest. -/
theorem State.KeyPromise.flagInv_of_noCode {s : State} (hs : s.KeyPromise) (hn : s.NoCode)
    (hvalid : s.status.dv = true → s.status.kv = true ∧ s.status.cv = true ∧ s.digest = macDigest s.kblk s.ctr)
    (hstale : s.status.dv = false → s.digest = Vector.replicate 20 0x00#8) : s.FlagInv where
  key := hs.key
  keyZeros := hs.keyZeros
  counter := hs.counter
  digestValid := hvalid
  digestStale := hstale
  codeValid h := by simp [hn.ov] at h
  codeStale _ := ⟨hn.offset, hn.bin, hn.code, hn.digits⟩
  codeRange := by simp [hn.code]
  untouched := hs.untouched

/-- With neither a digest nor a code, the flags promise what they promise of the key. -/
theorem State.KeyPromise.flagInv_of_noDigest {s : State} (hs : s.KeyPromise) (hn : s.NoDigest) : s.FlagInv :=
  hs.flagInv_of_noCode hn.noCode (fun h => by simp [hn.dv] at h) fun _ => hn.digest

/-- An open ingest has no valid key, so neither a digest nor a code (10_state.md R39). -/
theorem State.FlagInv.of_ka {s : State} (hs : s.FlagInv) (hka : s.status.ka = true) :
    s.status.kv = false ∧ s.NoDigest :=
  ⟨hs.keyPromise.kv_of_ka hka, hs.noDigest (hs.keyPromise.kv_of_ka hka)⟩

/-- An operation on an open ingest that leaves it open or failed, the counter and the results as they were. -/
theorem State.FlagInv.of_ingest {s t : State} (hs : s.FlagInv) (hka : s.status.ka = true) (h : SameResults s t)
    (hkv : t.status.kv = false) (hopen : t.status.ka = true ∨ t.status.isf = true) : t.FlagInv := by
  refine State.KeyPromise.flagInv_of_noDigest ?_ ((hs.of_ka hka).2.of_sameResults h)
  exact State.keyPromise_of_noKey hkv hopen (by rw [h]; exact hs.counter)

/-! ## Reset -/

/-- The reset state of the block meets the invariant, whatever the host's side. -/
theorem resetBlock_inv (s : State) : (resetBlock s).Inv := by
  refine ⟨⟨by simp, by simp, by simp [zeroBlock], by simp⟩, ⟨by simp [Config.klenLimit], by simp, by simp,
    by simp [Status.reset], by simp [Status.reset]⟩, ?_⟩
  exact State.KeyPromise.flagInv_of_noDigest
    ⟨by simp [Status.reset], by simp [Status.reset], fun _ => rfl, fun _ _ _ => ⟨rfl, rfl, rfl, rfl⟩⟩
    ⟨rfl, rfl, rfl, rfl, rfl, rfl, rfl⟩

/-- Settles O46: `State.reset` is the reset state of the block. -/
theorem invariantAtReset : Obligations.InvariantAtReset := resetBlock_inv State.reset

/-! ## The counter and the results -/

section
variable {s : State} (hs : s.Inv)
include hs

/-- A loaded counter makes the digest and the code stale (41_counter_serializer.md R132, R133). -/
theorem loadCounter_inv (c : Counter) : (loadCounter c s).Inv := by
  refine ⟨hs.decoder.of_sameDecoder rfl, hs.keyLength.of_sameDecoder rfl, ?_⟩
  exact State.KeyPromise.flagInv_of_noDigest ⟨hs.flags.key, hs.flags.keyZeros, by simp, hs.flags.untouched⟩
    ⟨rfl, rfl, rfl, rfl, rfl, rfl, rfl⟩

/-- `MAC` makes the digest of the current key and counter, and the code stale (42_hmac_sha1.md R152). -/
theorem macCore_invalCode_inv (hkv : s.status.kv = true) (hcv : s.status.cv = true) : (macCore (invalCode s)).Inv := by
  refine ⟨hs.decoder.of_sameDecoder rfl, hs.keyLength.of_sameDecoder rfl, ?_⟩
  exact State.KeyPromise.flagInv_of_noCode
    ⟨hs.flags.key, hs.flags.keyZeros, hs.flags.counter, hs.flags.untouched⟩ ⟨rfl, rfl, rfl, rfl, rfl⟩
    (fun _ => ⟨hkv, hcv, rfl⟩) (by simp)

/-- `TRUNC` makes the code of the digest (43_truncator.md R171). -/
theorem truncCore_inv (hdv : s.status.dv = true) : (truncCore s).Inv := by
  refine ⟨hs.decoder.of_sameDecoder rfl, hs.keyLength.of_sameDecoder rfl, ?_⟩
  exact
    { key := hs.flags.key
      keyZeros := hs.flags.keyZeros
      counter := hs.flags.counter
      digestValid := hs.flags.digestValid
      digestStale := hs.flags.digestStale
      codeValid := fun _ => ⟨hdv, rfl, rfl, rfl, rfl⟩
      codeStale := by simp
      codeRange := codeOf_le _
      untouched := hs.flags.untouched }

/-! ## The ingest opens, fails and closes -/

/-- `KINIT` opens an ingest that holds nothing (40_base32_decoder.md R104). -/
theorem execKinit_inv {t : State} (h : exec .kinit s = .next t) : t.Inv := by
  rw [exec, execKinit_eq] at h
  cases h
  refine ⟨⟨by simp, by simp, by simp [zeroBlock], by simp⟩,
    ⟨by simp [Config.klenLimit], by simp, by simp, by simp, by simp⟩, ?_⟩
  refine State.KeyPromise.flagInv_of_noDigest ?_ ⟨rfl, rfl, rfl, rfl, rfl, rfl, rfl⟩
  exact State.keyPromise_of_noKey rfl (.inl rfl) hs.flags.counter

/-- An invalid character of an open ingest (40_base32_decoder.md R115). -/
theorem setIsf_inv (hka : s.status.ka = true) : (setIsf true s).Inv :=
  ⟨hs.decoder.of_sameDecoder rfl, hs.keyLength.of_sameDecoder rfl,
    hs.flags.of_ingest hka rfl (hs.flags.of_ka hka).1 (.inl hka)⟩

end

/-! ## `KEND` -/

/-- `KEND` empties the decoder, closes the ingest, and writes `H`, `KBLK`, `KV` and `ISF` alone (40_base32_decoder.md
R112). -/
theorem kendBody_frame (s : State) : kendBody s =
    { s with
      acc := 0#12, nb := 0#4, kfill := 0#7, h := (kendBody s).h, kblk := (kendBody s).kblk
      status := { s.status with ka := false, kv := (kendBody s).status.kv, isf := (kendBody s).status.isf } } := by
  rcases kendBody_cases s with ⟨-, h⟩ | ⟨-, -, h⟩ | ⟨-, -, -, h⟩ | ⟨-, -, -, k, h⟩ <;> rw [h]

@[simp] theorem kendBody_acc (s : State) : (kendBody s).acc = 0#12 := by rw [kendBody_frame]
@[simp] theorem kendBody_nb (s : State) : (kendBody s).nb = 0#4 := by rw [kendBody_frame]
@[simp] theorem kendBody_kfill (s : State) : (kendBody s).kfill = 0#7 := by rw [kendBody_frame]
@[simp] theorem kendBody_kne (s : State) : (kendBody s).kne = s.kne := by rw [kendBody_frame]
@[simp] theorem kendBody_klen (s : State) : (kendBody s).klen = s.klen := by rw [kendBody_frame]
@[simp] theorem kendBody_klong (s : State) : (kendBody s).klong = s.klong := by rw [kendBody_frame]
@[simp] theorem kendBody_ctr (s : State) : (kendBody s).ctr = s.ctr := by rw [kendBody_frame]
@[simp] theorem kendBody_digest (s : State) : (kendBody s).digest = s.digest := by rw [kendBody_frame]
@[simp] theorem kendBody_offset (s : State) : (kendBody s).offset = s.offset := by rw [kendBody_frame]
@[simp] theorem kendBody_bin (s : State) : (kendBody s).bin = s.bin := by rw [kendBody_frame]
@[simp] theorem kendBody_code (s : State) : (kendBody s).code = s.code := by rw [kendBody_frame]
@[simp] theorem kendBody_digits (s : State) : (kendBody s).digits = s.digits := by rw [kendBody_frame]
@[simp] theorem kendBody_rdata (s : State) : (kendBody s).rdata = s.rdata := by rw [kendBody_frame]
@[simp] theorem kendBody_ka (s : State) : (kendBody s).status.ka = false := by rw [kendBody_frame]

/-- `KEND` leaves the counter and the results as they were (40_base32_decoder.md R112). -/
theorem kendBody_sameResults (s : State) : SameResults s (kendBody s) := by
  rw [kendBody_frame]; rfl

/-- The key block made of a digest ends in 44 zeros (42_hmac_sha1.md R150). -/
theorem digestBlock_getElem_zero {bytes : List Byte} (hl : bytes.length = 20) {i : Nat} (h : i < 64) (h20 : 20 ≤ i) :
    (digestBlock bytes)[i] = 0x00#8 := by
  rw [digestBlock, blockOf_getElem _ _ h, List.getD_eq_getElem?_getD, List.getElem?_append_right (by omega),
    List.getElem?_replicate_of_lt (by simp; omega), Option.getD_some]

/-- After `KEND` the decoder is empty, whatever it was. -/
theorem kendBody_decoderInv (s : State) : (kendBody s).DecoderInv :=
  ⟨by simp, by simp, by simp, by simp⟩

section
variable {s : State} (hs : s.Inv) (hka : s.status.ka = true)
include hs hka

/-- `KEND` empties the chaining value: without a long key it was empty (10_state.md R29). -/
theorem kendBody_h : (kendBody s).h = zeroChain := by
  have hshort : s.klong = false → s.h = zeroChain := fun hl => hs.keyLength.chain (by simp [hl])
  rcases kendBody_cases s with ⟨-, h⟩ | ⟨-, hk, h⟩ | ⟨-, -, hl, h⟩ | ⟨-, -, -, k, h⟩
  · rw [h]
  · have hlen : s.klen = 0#64 := (hs.decoder.noSymbol hka hk).2.2
    rw [h]
    refine hshort (Bool.eq_false_of_not_eq_true fun hl => ?_)
    simpa [hlen] using hs.keyLength.long.1 hl
  · rw [h]; exact hshort hl
  · rw [h]

theorem kendBody_keyInv : (kendBody s).KeyInv :=
  ⟨by simpa using hs.keyLength.limit, by simpa using hs.keyLength.long, fun _ => kendBody_h hs hka, by simp, by simp⟩

/-- A key that is made ready ends in the zeros it leaves (42_hmac_sha1.md R150). -/
theorem kendBody_keyZeros (hisf : s.status.isf = false) (hkne : s.kne = true) (i : Nat) (h : i < 64)
    (hi : (if s.klong then 20 else s.klen.toNat) ≤ i) : (kendBody s).kblk[i] = 0x00#8 := by
  cases hl : s.klong
  · rw [hl, if_neg (by simp), ← hs.keyLength.pendingShort hka hl] at hi
    simp only [kendBody_short hisf hkne hl]
    exact hs.decoder.fill.2 hka i h hi
  · rw [hl, if_pos rfl] at hi
    simp only [kendBody_long hisf hkne hl]
    exact digestBlock_getElem_zero (chainBytes_length _) h hi

/-- A key made ready keeps the promise of `KV` (10_state.md R39). -/
theorem kendBody_flagInv_ready (hisf : s.status.isf = false) (hkne : s.kne = true) : (kendBody s).FlagInv := by
  have hstatus : (kendBody s).status = { s.status with ka := false, kv := true } := by
    cases hl : s.klong
    · rw [kendBody_short hisf hkne hl]
    · rw [kendBody_long hisf hkne hl]
  have hresults := kendBody_sameResults s
  refine State.KeyPromise.flagInv_of_noDigest ⟨fun _ => ?_, fun _ => ?_, ?_, ?_⟩
    ((hs.flags.of_ka hka).2.of_sameResults hresults)
  · rw [hstatus, kendBody_kne]; exact ⟨rfl, hisf, hkne⟩
  · rw [kendBody_klen, kendBody_klong]; exact kendBody_keyZeros hs hka hisf hkne
  · rw [hresults]; exact hs.flags.counter
  · simp [hstatus]

/-- `KEND` leaves a key, or an ingest that failed (40_base32_decoder.md R113 to R115). -/
theorem kendBody_flagInv : (kendBody s).FlagInv := by
  have hkv := (hs.flags.of_ka hka).1
  have hresults := kendBody_sameResults s
  rcases kendBody_cases s with ⟨hi, h⟩ | ⟨-, -, h⟩ | ⟨hi, hk, -, -⟩ | ⟨hi, hk, -, -, -⟩
  · exact hs.flags.of_ingest hka hresults (by rw [h]; exact hkv) (.inr (by rw [h]; exact hi))
  · exact hs.flags.of_ingest hka hresults (by rw [h]; exact hkv) (.inr (by rw [h]))
  · exact kendBody_flagInv_ready hs hka hi hk
  · exact kendBody_flagInv_ready hs hka hi hk

/-- `KEND` closes the ingest: the key is ready, or the secret was invalid (40_base32_decoder.md R112). -/
theorem kendBody_inv : (kendBody s).Inv :=
  ⟨kendBody_decoderInv s, kendBody_keyInv hs hka, kendBody_flagInv hs hka⟩

end

/-! ## A symbol -/

/-- The key block is zero from the pending bytes on (10_state.md R25, R26). -/
def State.ZeroTail (s : State) : Prop := ∀ (i : Nat) (h : i < 64), s.kfill.toNat ≤ i → s.kblk[i] = 0x00#8

/-- The number of pending bytes after one more. -/
theorem kfill_succ_toNat {x : BitVec 7} (h : x.toNat ≤ 64) : (x + 1#7).toNat = x.toNat + 1 := by
  rw [BitVec.toNat_add, BitVec.toNat_ofNat]; omega

section
variable {s : State} (b : Byte)

theorem keyPush_kfill_le (hf : s.kfill.toNat ≤ 64) : (keyPush b s).kfill.toNat ≤ 64 := by
  by_cases h : s.kfill = 64#7
  · rw [keyPush_full b h]; simp
  · have : s.kfill.toNat ≠ 64 := fun h' => h (BitVec.eq_of_toNat_eq h')
    rw [keyPush_room b h]
    simp only [kfill_succ_toNat hf]
    omega

theorem keyPush_zeroTail (hf : s.kfill.toNat ≤ 64) (hz : s.ZeroTail) : (keyPush b s).ZeroTail := by
  intro i hi hle
  by_cases h : s.kfill = 64#7
  · simp only [keyPush_full b h] at hle ⊢
    rw [Vector.getElem_setIfInBounds_ne hi (by simp at hle; omega), zeroBlock, Vector.getElem_replicate]
  · simp only [keyPush_room b h, kfill_succ_toNat hf] at hle ⊢
    rw [Vector.getElem_setIfInBounds_ne hi (by omega)]
    exact hz i hi (by omega)

/-- A full block holds all of a short key, or the last 64 bytes of a long one (10_state.md R26). -/
theorem State.KeyInv.klen_of_full (hs : s.KeyInv) (hka : s.status.ka = true) (hf : s.kfill.toNat = 64) :
    64 ≤ s.klen.toNat ∧ s.klen.toNat % 64 = 0 := by
  cases hl : s.klong
  · have := hs.pendingShort hka hl
    omega
  · have := hs.long.1 hl
    have := hs.pendingLong hka hl
    omega

/-- Into a block with room a byte is stored in the same mode (10_state.md R28). -/
theorem State.KeyInv.long_of_room (hs : s.KeyInv) (hka : s.status.ka = true) (hf : s.kfill.toNat < 64) :
    s.klong = true ↔ 64 < s.klen.toNat + 1 := by
  have hlong := hs.long
  cases hl : s.klong
  · have := hs.pendingShort hka hl
    simp only [Bool.false_eq_true, false_iff]
    omega
  · have := hlong.1 hl
    simp only [true_iff]
    omega

/-- Below its limit `KLEN` counts one more byte (10_state.md R27). -/
theorem klen_succ_of_limit (hlim : s.klen.toNat + 1 < Config.klenLimit) :
    (s.klen + 1#64).toNat = s.klen.toNat + 1 :=
  klen_succ_toNat (by unfold Config.klenLimit at hlim; omega)

section
variable (hs : s.KeyInv) (hka : s.status.ka = true) (hf : s.kfill.toNat ≤ 64)
  (hlim : s.klen.toNat + 1 < Config.klenLimit)
include hs hka hlim

/-- A byte after a full block starts the next block of a long key (40_base32_decoder.md R110). -/
theorem keyPush_keyInv_full (h : s.kfill = 64#7) : (keyPush b s).KeyInv := by
  obtain ⟨hle, hmod⟩ := hs.klen_of_full hka (by rw [h]; rfl)
  have hlen := klen_succ_of_limit hlim
  rw [keyPush_full b h]
  refine ⟨?_, ?_, fun hn => absurd ⟨hka, rfl⟩ hn, fun _ hl => Bool.noConfusion hl, fun _ _ => ?_⟩
  · simpa only [hlen] using hlim
  · simp only [hlen, true_iff]
    omega
  · simp only [hlen, BitVec.toNat_ofNat]
    omega

include hf in
/-- A byte is stored where the block has room (40_base32_decoder.md R108). -/
theorem keyPush_keyInv_room (h : s.kfill ≠ 64#7) : (keyPush b s).KeyInv := by
  have hroom : s.kfill.toNat ≠ 64 := fun h' => h (BitVec.eq_of_toNat_eq h')
  have hlen := klen_succ_of_limit hlim
  have hfill := kfill_succ_toNat hf
  rw [keyPush_room b h]
  refine ⟨?_, ?_, hs.chain, fun _ hl => ?_, fun _ hl => ?_⟩
  · simpa only [hlen] using hlim
  · simpa only [hlen] using hs.long_of_room hka (by omega)
  · simp only [hlen, hfill, hs.pendingShort hka hl]
  · have := hs.pendingLong hka hl
    have := hs.long.1 hl
    simp only [hlen, hfill]
    omega

include hf in
/-- One more byte of an open ingest keeps the key's length and mode in step (40_base32_decoder.md R108, R110). -/
theorem keyPush_keyInv : (keyPush b s).KeyInv := by
  by_cases h : s.kfill = 64#7
  · exact keyPush_keyInv_full b hs hka hlim h
  · exact keyPush_keyInv_room b hs hka hf hlim h

end

end

section
variable {s : State} (hs : s.Inv) (hka : s.status.ka = true) (v : Symbol)

/-- The live bits while a symbol is taken in (40_base32_decoder.md R107). -/
theorem accShifted_lt (h : s.nb.toNat ≤ 7 ∧ s.acc.toNat < 2 ^ s.nb.toNat) :
    (accShifted s.acc v).toNat < 2 ^ (s.nb.toNat + 5) := by
  obtain ⟨hnb, hacc⟩ := h
  have hv := v.toNat_lt
  rw [accShifted_toNat v (hacc.trans_le (Nat.pow_le_pow_right (by omega) hnb)), pow_add]
  omega

/-- After a symbol `NB` counts the live bits and `ACC` has no other (40_base32_decoder.md R107). -/
theorem shiftIn_live (h : s.nb.toNat ≤ 7 ∧ s.acc.toNat < 2 ^ s.nb.toNat) :
    (shiftIn v s).nb.toNat ≤ 7 ∧ (shiftIn v s).acc.toNat < 2 ^ (shiftIn v s).nb.toNat := by
  have h3 := emitsByte_iff h.1
  cases hemit : emitsByte s
  · rw [hemit] at h3
    rw [shiftIn_noByte v hemit]
    simp only [nbShifted_toNat h.1]
    exact ⟨by simp at h3; omega, accShifted_lt v h⟩
  · have hleft := nbLeft_toNat h.1 (h3.1 hemit)
    have hle : (s.nb + 5#4 - 8#4).toNat ≤ 4 := by omega
    rw [shiftIn_byte v hemit, keyPush_nb, keyPush_acc]
    refine ⟨by simp only; omega, ?_⟩
    rw [keepLive_toNat _ (by omega)]
    exact Nat.mod_lt _ (by positivity)

/-- A symbol that completes a byte below the key length limit (40_base32_decoder.md R117). -/
theorem klen_lt_of_emitsByte (hemit : emitsByte s = true) (hl : reachesKeyLimit s = false) :
    s.klen.toNat + 1 < Config.klenLimit := by
  rw [reachesKeyLimit, hemit, Bool.true_and] at hl
  exact Nat.lt_of_not_le (of_decide_eq_false hl)

include hs hka

/-- A symbol keeps the key's block, length and mode in step (40_base32_decoder.md R106). -/
theorem shiftIn_keyInv (hl : reachesKeyLimit s = false) :
    (shiftIn v { s with kne := true }).KeyInv ∧ (shiftIn v { s with kne := true }).kfill.toNat ≤ 64 ∧
      (shiftIn v { s with kne := true }).ZeroTail := by
  obtain ⟨hle, hzero⟩ := hs.decoder.fill
  obtain ⟨hlimit, hlong, hchain, hshort, hpend⟩ := hs.keyLength
  cases hemit : emitsByte { s with kne := true }
  · rw [shiftIn_noByte v hemit]
    exact ⟨⟨hlimit, hlong, hchain, hshort, hpend⟩, hle, hzero hka⟩
  · rw [shiftIn_byte v hemit]
    have hlim : s.klen.toNat + 1 < Config.klenLimit := klen_lt_of_emitsByte (s := s) hemit hl
    refine ⟨keyPush_keyInv _ ?_ hka hle hlim, keyPush_kfill_le _ hle, keyPush_zeroTail _ hle (hzero hka)⟩
    exact ⟨hlimit, hlong, hchain, hshort, hpend⟩

/-- A symbol of an open ingest (40_base32_decoder.md R105, R106). -/
theorem shiftIn_inv (hl : reachesKeyLimit s = false) : (shiftIn v { s with kne := true }).Inv := by
  obtain ⟨hkey, hle, hzero⟩ := shiftIn_keyInv hs hka v hl
  have hframe := shiftIn_sameButDecoder v s
  have hstatus := hframe.status
  refine ⟨⟨shiftIn_live v hs.decoder.live, by simp [hka], ⟨hle, fun _ => hzero⟩, by simp⟩, hkey, ?_⟩
  refine hs.flags.of_ingest hka ?_ (by rw [hstatus]; exact (hs.flags.of_ka hka).1) (.inl (by rw [hstatus]; exact hka))
  rw [hframe]
  rfl

end

/-! ## Every command, every step -/

/-- Every command keeps the invariant (10_state.md R49). -/
theorem exec_keeps_inv {i : Instr} {s t : State} (hs : s.Inv) (h : exec i s = .next t) : t.Inv := by
  cases i with
  | nop => cases h; exact hs
  | clr => cases h; exact resetBlock_inv s
  | kinit => exact execKinit_inv hs h
  | kchar ch =>
    rcases execKchar_next h with ⟨-, rfl⟩ | ⟨-, -, rfl⟩ | ⟨-, -, -, rfl⟩ | ⟨hka, -, -, rfl⟩ | ⟨hka, -, hl, v, -, rfl⟩
    · exact hs.of_sameBlock rfl
    · exact hs
    · exact hs
    · exact setIsf_inv hs hka
    · exact shiftIn_inv hs hka v hl
  | kend =>
    rcases execKend_next h with ⟨-, rfl⟩ | ⟨hka, rfl⟩
    · exact hs.of_sameBlock rfl
    · exact kendBody_inv hs hka
  | tload x => cases h; exact loadCounter_inv hs _
  | cload c => cases h; exact loadCounter_inv hs _
  | mac =>
    rcases execMac_next h with ⟨-, rfl⟩ | ⟨hkv, hcv, rfl⟩
    · exact hs.of_sameBlock rfl
    · exact macCore_invalCode_inv hs hkv hcv
  | trunc =>
    rcases execTrunc_next h with ⟨-, rfl⟩ | ⟨hdv, rfl⟩
    · exact hs.of_sameBlock rfl
    · exact truncCore_inv hs hdv
  | gen =>
    rcases execGen_next h with ⟨-, rfl⟩ | ⟨hkv, hcv, rfl⟩
    · exact hs.of_sameBlock rfl
    · exact truncCore_inv (macCore_invalCode_inv hs hkv hcv) rfl
  | peek sp k =>
    rcases execPeek_next h with ⟨b, -, rfl⟩ | ⟨-, rfl⟩
    · exact hs.of_sameBlock rfl
    · exact hs.of_sameBlock rfl

/-- Settles O47: a step is idle, a reset, an illegal word, or a command, and each keeps the invariant. -/
theorem stepKeepsInvariant : Obligations.StepKeepsInvariant := by
  intro s t hs h
  rcases step_next h with ⟨-, rfl⟩ | ⟨rest, -, rfl⟩ | ⟨w, rest, e, -, -, rfl⟩ | ⟨w, rest, i, -, -, hexec⟩
  · exact hs
  · exact resetBlock_inv _
  · exact hs.of_sameBlock rfl
  · exact exec_keeps_inv (s := acceptWord s) (hs.of_sameBlock rfl) hexec

end Sys2Proof.Machine
end

section
/-! The flags, the frame of each command, the count of accepted words and the ports (10_state.md R38, R39, R44, R45, R46,
R52). -/

namespace Sys2Proof.Machine

/-! ## What a command does to the flags -/

/-- The flags before and after a command that has a next state (10_state.md R38). -/
inductive StatusMove : Instr → Status → Status → Prop
  /-- The precondition failed. -/
  | suppressed {i : Instr} {f : Status} (hi : (∃ ch, i = .kchar ch) ∨ i = .kend ∨ i = .mac ∨ i = .trunc ∨ i = .gen) :
    StatusMove i f { f with sqe := true }
  | nop {f : Status} : StatusMove .nop f f
  | clr {f : Status} : StatusMove .clr f Status.reset
  | kinit {f : Status} :
    StatusMove .kinit f { f with kv := false, isf := false, ka := true, dv := false, ov := false }
  /-- A symbol, a strip character, or any character of a failed ingest. -/
  | kcharKeeps {ch : Byte} {f : Status} (hka : f.ka = true) : StatusMove (.kchar ch) f f
  | kcharInvalid {ch : Byte} {f : Status} (hka : f.ka = true) : StatusMove (.kchar ch) f { f with isf := true }
  /-- The ingest had failed, or is empty and fails now. -/
  | kendFails {f : Status} (hka : f.ka = true) : StatusMove .kend f { f with ka := false, isf := true }
  | kendReady {f : Status} (hka : f.ka = true) (hisf : f.isf = false) :
    StatusMove .kend f { f with ka := false, kv := true }
  | tload {x : Word64} {f : Status} : StatusMove (.tload x) f { f with cv := true, dv := false, ov := false }
  | cload {x : Word64} {f : Status} : StatusMove (.cload x) f { f with cv := true, dv := false, ov := false }
  | mac {f : Status} (hkv : f.kv = true) (hcv : f.cv = true) : StatusMove .mac f { f with dv := true, ov := false }
  | trunc {f : Status} (hdv : f.dv = true) : StatusMove .trunc f { f with ov := true }
  | gen {f : Status} (hkv : f.kv = true) (hcv : f.cv = true) : StatusMove .gen f { f with dv := true, ov := true }
  | peek {sp : PeekSpace} {k : Byte} {f : Status} : StatusMove (.peek sp k) f f
  /-- A `PEEK` that no word encodes (log 6). -/
  | peekIllegal {sp : PeekSpace} {k : Byte} {f : Status} (hw : ¬ (Instr.peek sp k).WellFormed) :
    StatusMove (.peek sp k) f { f with ill := true }

/-- `KEND` of an open ingest, by its flags (40_base32_decoder.md R112). -/
theorem kendBody_statusMove {s : State} (hka : s.status.ka = true) : StatusMove .kend s.status (kendBody s).status := by
  rcases kendBody_cases s with ⟨hi, h⟩ | ⟨-, -, h⟩ | ⟨hi, -, -, h⟩ | ⟨hi, -, -, k, h⟩
  · have hstatus : (kendBody s).status = { s.status with ka := false, isf := true } := by rw [h, ← hi]
    rw [hstatus]
    exact .kendFails hka
  · rw [h]; exact .kendFails hka
  · rw [h]; exact .kendReady hka hi
  · rw [h]; exact .kendReady hka hi

/-- All a command can do to the flags. -/
theorem exec_statusMove {i : Instr} {s t : State} (h : exec i s = .next t) : StatusMove i s.status t.status := by
  cases i with
  | nop => cases h; exact .nop
  | clr => cases h; exact .clr
  | kinit => cases h; exact .kinit
  | kchar ch =>
    rcases execKchar_next h with ⟨-, rfl⟩ | ⟨hka, -, rfl⟩ | ⟨hka, -, -, rfl⟩ | ⟨hka, -, -, rfl⟩ | ⟨hka, -, -, v, -, rfl⟩
    · exact .suppressed (.inl ⟨ch, rfl⟩)
    · exact .kcharKeeps hka
    · exact .kcharKeeps hka
    · exact .kcharInvalid hka
    · rw [shiftIn_status]; exact .kcharKeeps hka
  | kend =>
    rcases execKend_next h with ⟨-, rfl⟩ | ⟨hka, rfl⟩
    · exact .suppressed (by simp)
    · exact kendBody_statusMove hka
  | tload x => cases h; exact .tload
  | cload x => cases h; exact .cload
  | mac =>
    rcases execMac_next h with ⟨-, rfl⟩ | ⟨hkv, hcv, rfl⟩
    · exact .suppressed (by simp)
    · exact .mac hkv hcv
  | trunc =>
    rcases execTrunc_next h with ⟨-, rfl⟩ | ⟨hdv, rfl⟩
    · exact .suppressed (by simp)
    · exact .trunc hdv
  | gen =>
    rcases execGen_next h with ⟨-, rfl⟩ | ⟨hkv, hcv, rfl⟩
    · exact .suppressed (by simp)
    · exact .gen hkv hcv
  | peek sp k =>
    rcases execPeek_next h with ⟨b, -, rfl⟩ | ⟨hm, rfl⟩
    · exact .peek
    · have hnone := memRead_isSome sp k.toNat s
      rw [hm] at hnone
      exact .peekIllegal (by simpa [Instr.WellFormed, Instr.wellFormed] using hnone)

/-- Settles O15: by the moves of the flags, command by command. -/
theorem errorFlagsAreSticky : Obligations.ErrorFlagsAreSticky := by
  intro i s t h
  have hmove := exec_statusMove h
  generalize s.status = f, t.status = g at hmove ⊢
  cases hmove with
  | suppressed hi =>
    obtain ⟨ch, rfl⟩ | rfl | rfl | rfl | rfl := hi <;> simp
  | clr => simp [Status.reset]
  | _ => simp

/-- Settles O16: by the moves of the flags, command by command. -/
theorem flagsAreWrittenByTheirCommands : Obligations.FlagsAreWrittenByTheirCommands := by
  intro i s t hw h
  have hmove := exec_statusMove h
  generalize s.status = f, t.status = g at hmove ⊢
  cases hmove with
  | suppressed hi =>
    obtain ⟨ch, rfl⟩ | rfl | rfl | rfl | rfl := hi <;> simp
  | peekIllegal hill => exact absurd hw hill
  | clr => simp [Status.reset]
  | _ => simp +contextual

/-- The chain of the validity flags (10_state.md R39). -/
def Status.ValidityChain (f : Status) : Prop :=
  (f.ov = true → f.dv = true) ∧ (f.dv = true → f.kv = true ∧ f.cv = true) ∧
    (f.kv = true → f.ka = false ∧ f.isf = false)

/-- In an open ingest the chain holds because none of its flags is set. -/
theorem Status.ValidityChain.of_ka {f : Status} (hf : f.ValidityChain) (hka : f.ka = true) :
    f.kv = false ∧ f.dv = false ∧ f.ov = false := by
  obtain ⟨hov, hdv, hkv⟩ := hf
  cases hv : f.kv
  · cases hd : f.dv
    · simp_all
    · simp_all
  · simp_all

theorem StatusMove.validityChain {i : Instr} {f g : Status} (h : StatusMove i f g) (hf : f.ValidityChain) :
    g.ValidityChain := by
  have hopen := hf.of_ka
  obtain ⟨hov, hdv, hkv⟩ := hf
  cases h with
  | suppressed | nop | kcharKeeps | peek | peekIllegal => exact ⟨hov, hdv, hkv⟩
  | clr | kinit => simp [Status.ValidityChain, Status.reset]
  | kcharInvalid hka | kendFails hka | kendReady hka =>
    obtain ⟨hk, hd, ho⟩ := hopen hka
    simp_all [Status.ValidityChain]
  | tload | cload => exact ⟨by simp, by simp, hkv⟩
  | mac hk hc => exact ⟨by simp, fun _ => ⟨hk, hc⟩, hkv⟩
  | trunc hd => exact ⟨fun _ => hd, hdv, hkv⟩
  | gen hk hc => exact ⟨fun _ => rfl, fun _ => ⟨hk, hc⟩, hkv⟩

/-- Settles O48: every move of the flags keeps the chain, and a reset clears it. -/
theorem validityChainIsKept : Obligations.ValidityChainIsKept := by
  intro s t chain hs h
  rcases step_next h with ⟨-, rfl⟩ | ⟨rest, -, rfl⟩ | ⟨w, rest, e, -, -, rfl⟩ | ⟨w, rest, i, -, -, hexec⟩
  · exact hs
  · exact StatusMove.clr.validityChain hs
  · exact hs
  · exact (exec_statusMove hexec).validityChain hs

/-! ## The frame of a command -/

/-- `KEND` writes `KBLK` only for a long key (40_base32_decoder.md R112). -/
theorem kendBody_kblk {s : State} (hl : s.klong = false) : (kendBody s).kblk = s.kblk := by
  rcases kendBody_cases s with ⟨-, h⟩ | ⟨-, -, h⟩ | ⟨-, -, -, h⟩ | ⟨-, -, hlong, -⟩
  · rw [h]
  · rw [h]
  · rw [h]
  · simp [hl] at hlong

/-- Settles O17: the frame of each command. -/
theorem writeMatrix : Obligations.WriteMatrix := by
  intro i s t h
  obtain ⟨hpending, hcp⟩ := exec_host h
  cases i with
  | nop => cases h; simp
  | clr => cases h; simp
  | kinit => cases h; simp
  | kchar ch =>
    rcases execKchar_next h with ⟨-, rfl⟩ | ⟨-, -, rfl⟩ | ⟨-, -, -, rfl⟩ | ⟨-, -, -, rfl⟩ | ⟨-, -, -, v, -, rfl⟩ <;> simp
  | kend =>
    rcases execKend_next h with ⟨-, rfl⟩ | ⟨-, rfl⟩
    · simp
    · have hlong : (kendBody s).kblk ≠ s.kblk → s.klong = true :=
        fun hne => Bool.eq_true_of_not_eq_false fun hl => hne (kendBody_kblk hl)
      simpa [hpending, hcp] using hlong
  | tload x => cases h; simp
  | cload x => cases h; simp
  | mac => rcases execMac_next h with ⟨-, rfl⟩ | ⟨-, -, rfl⟩ <;> simp
  | trunc => rcases execTrunc_next h with ⟨-, rfl⟩ | ⟨-, rfl⟩ <;> simp
  | gen => rcases execGen_next h with ⟨-, rfl⟩ | ⟨-, -, rfl⟩ <;> simp
  | peek sp k => rcases execPeek_next h with ⟨b, -, rfl⟩ | ⟨-, rfl⟩ <;> simp

/-! ## The count of accepted words -/

/-- Settles O9: a command leaves the host's side alone, so a step moves it as the host's next move says. -/
theorem cpCountsAcceptedWords : Obligations.CpCountsAcceptedWords := by
  intro s t h
  rcases step_next h with ⟨hp, rfl⟩ | ⟨rest, hp, rfl⟩ | ⟨w, rest, e, hp, -, rfl⟩ | ⟨w, rest, i, hp, -, hexec⟩
  · simp [hp]
  · simp [hp]
  · simp [hp]
  · obtain ⟨hpending, hcp⟩ := exec_host hexec
    simp [hpending, hcp, hp]

/-! ## Reset -/

/-- Settles O10: `State.reset` and the state after `CLR` are both a block reset. -/
theorem resetStateIsAllZero : Obligations.ResetStateIsAllZero := by
  unfold Obligations.ResetStateIsAllZero
  intro allZero
  have hzero : ∀ s : State, allZero (resetBlock s) := by
    intro s
    simp [allZero, zeroBlock, zeroChain, statusWord, Status.reset]
  exact ⟨hzero State.reset, fun s => ⟨_, rfl, hzero s⟩⟩

/-! ## The ports -/

/-- A concatenation read as a number: the upper part in the weight of the lower part's width. -/
theorem toNat_append_eq {m n : Nat} (x : BitVec m) (y : BitVec n) : (x ++ y).toNat = 2 ^ n * x.toNat + y.toNat := by
  rw [BitVec.toNat_append, Nat.shiftLeft_eq, Nat.mul_comm, ← Nat.two_pow_add_eq_or_of_lt y.isLt]

/-- Six characters, one by one. -/
theorem digits_toList_eq (d : Digits) : d.toList = [d[0], d[1], d[2], d[3], d[4], d[5]] := by
  apply List.ext_getElem
  · simp
  · intro i h1 h2
    have : i < 6 := by simpa using h1
    interval_cases i <;> simp

/-- Settles O45: a port is a concatenation of registers, so its value is their sum in the weights of their places. -/
theorem portsShowTheRegisters : Obligations.PortsShowTheRegisters := by
  intro s
  refine ⟨?_, rfl, rfl, ?_⟩
  · simp only [portStatus, statusWord, toNat_append_eq, BitVec.toNat_ofBool]
    omega
  · simp only [portCodeAscii, digits_toList_eq, toNat_append_eq, List.map_cons, List.map_nil, List.foldl_cons,
      List.foldl_nil]
    omega

end Sys2Proof.Machine
end

section
/-! The encoding (30_encoding.md R81 to R87): the words a command is decoded from, the rows of the opcode map, and the
words that are no command. -/

namespace Sys2Proof.Machine

/-! ## The fields of a word, as numbers -/

theorem cmdData_toNat (w : CmdWord) : (cmdData w).toNat = w.toNat % 2 ^ 64 := by
  simp [cmdData]

theorem cmdOp_toNat (w : CmdWord) : (cmdOp w).toNat = w.toNat / 2 ^ 64 := by
  have := w.toNat_lt
  simp only [cmdOp, BitVec.extractLsb'_toNat, Nat.shiftRight_eq_div_pow]
  omega

/-- The lowest eight bits of an operand. -/
theorem extractLsb'_lowByte_toNat (d : Word64) : (d.extractLsb' 0 8).toNat = d.toNat % 256 := by
  simp

/-- The space field of an operand. -/
theorem extractLsb'_space_toNat (d : Word64) : (d.extractLsb' 8 4).toNat = d.toNat / 256 % 16 := by
  simp [Nat.shiftRight_eq_div_pow]

/-- The bits of an operand from bit `n` up are zero when its value is below `2 ^ n`. -/
theorem extractLsb'_upper_eq_zero_iff {d : Word64} {n k : Nat} (h : n + k = 64) :
    d.extractLsb' n k = 0#k ↔ d.toNat < 2 ^ n := by
  have hlt : d.toNat / 2 ^ n < 2 ^ k := Nat.div_lt_of_lt_mul (by rw [← pow_add, h]; exact d.isLt)
  rw [BitVec.toNat_eq, BitVec.extractLsb'_toNat, Nat.shiftRight_eq_div_pow, Nat.mod_eq_of_lt hlt]
  simp

/-! ## A legal word is the word of its command -/

/-- Format C read back: with its upper bits zero an operand is its character. -/
theorem operandOf_kchar_extract {d : Word64} (h : d.toNat < 2 ^ 8) :
    operandOf (.kchar (d.extractLsb' 0 8)) = d := by
  apply BitVec.eq_of_toNat_eq
  simp only [operandOf, toNat_append_eq, extractLsb'_lowByte_toNat, BitVec.toNat_ofNat]
  omega

/-- Format P read back: with its upper bits zero an operand is its space and its index. -/
theorem operandOf_peek_extract {d : Word64} {sp : PeekSpace} (h : d.toNat < 2 ^ 12)
    (hsp : spaceNumber sp = d.extractLsb' 8 4) : operandOf (.peek sp (d.extractLsb' 0 8)) = d := by
  apply BitVec.eq_of_toNat_eq
  simp only [operandOf, hsp, toNat_append_eq, extractLsb'_lowByte_toNat, extractLsb'_space_toNat, BitVec.toNat_ofNat]
  omega

/-- Format N reads the zero operand. -/
theorem encodes_of_decodeN {i j : Instr} {d : Word64} (hop : operandOf i = 0#64) (hw : i.WellFormed)
    (h : decodeN i d = .ok j) : opcodeOfInstr j = opcodeOfInstr i ∧ operandOf j = d ∧ j.WellFormed := by
  obtain ⟨rfl, rfl⟩ := decodeN_ok.1 h
  exact ⟨rfl, hop, hw⟩

/-- What the decoder reads from an operand is a command of that operation, with that operand, that has a word. -/
theorem encodes_of_decodeOperand {op : Opcode} {d : Word64} {i : Instr} (h : decodeOperand op d = .ok i) :
    opcodeOfInstr i = op ∧ operandOf i = d ∧ i.WellFormed := by
  cases op with
  | kchar =>
    obtain ⟨hzero, rfl⟩ := decodeC_ok.1 h
    exact ⟨rfl, operandOf_kchar_extract ((extractLsb'_upper_eq_zero_iff rfl).1 hzero), rfl⟩
  | peek =>
    obtain ⟨hzero, sp, hsp, hidx, rfl⟩ := decodeP_ok.1 h
    exact ⟨rfl, operandOf_peek_extract ((extractLsb'_upper_eq_zero_iff rfl).1 hzero) (spaceNumber_of_spaceOf hsp),
      decide_eq_true hidx⟩
  | tload => cases h; exact ⟨rfl, rfl, rfl⟩
  | cload => cases h; exact ⟨rfl, rfl, rfl⟩
  | nop => exact encodes_of_decodeN rfl rfl h
  | clr => exact encodes_of_decodeN rfl rfl h
  | kinit => exact encodes_of_decodeN rfl rfl h
  | kend => exact encodes_of_decodeN rfl rfl h
  | mac => exact encodes_of_decodeN rfl rfl h
  | trunc => exact encodes_of_decodeN rfl rfl h
  | gen => exact encodes_of_decodeN rfl rfl h

/-- A word decodes to a command exactly when it has the command's opcode byte and operand, and the command has a word. -/
theorem decode_eq_ok_iff {w : CmdWord} {i : Instr} :
    decode w = .ok i ↔ cmdOp w = opcodeByte (opcodeOfInstr i) ∧ cmdData w = operandOf i ∧ i.WellFormed := by
  constructor
  · intro h
    obtain ⟨op, hop, hd⟩ := decode_ok h
    obtain ⟨rfl, hdata, hw⟩ := encodes_of_decodeOperand hd
    exact ⟨(opcodeByte_of_opcodeOf hop).symm, hdata.symm, hw⟩
  · rintro ⟨hop, hdata, hw⟩
    rw [← mkWord_slices w, hop, hdata]
    exact decode_encode hw

/-- Settles O1: format by format, the operand is read back as it was written. -/
theorem decodeOfEncode : Obligations.DecodeOfEncode := fun _ hw => decode_encode hw

/-- Settles O2: a legal word has the opcode byte and the operand of its command, which are all of a word. -/
theorem encodeOfDecode : Obligations.EncodeOfDecode := by
  intro w i h
  obtain ⟨hop, hdata, hw⟩ := decode_eq_ok_iff.1 h
  exact ⟨hw, by rw [encode, ← hop, ← hdata, mkWord_slices]⟩

/-- Settles O5: each word is the word of its command, written out. -/
theorem specWordsDecode : Obligations.SpecWordsDecode :=
  ⟨decode_encode (i := .nop) rfl, decode_encode (i := .clr) rfl, decode_encode (i := .kinit) rfl,
    decode_encode (i := .kchar 0x4D#8) rfl, decode_encode (i := .kend) rfl, decode_encode (i := .tload 59#64) rfl,
    decode_encode (i := .cload 0x0123456789ABCDEF#64) rfl, decode_encode (i := .mac) rfl, decode_encode (i := .trunc) rfl,
    decode_encode (i := .gen) rfl, decode_encode (i := .peek .kblk 63#8) rfl, decode_encode (i := .peek .msg 7#8) rfl,
    decode_encode (i := .peek .digest 19#8) rfl, decode_encode (i := .peek .digits 5#8) rfl⟩

/-! ## The rows of the opcode map -/

/-- How many low bits of the operand an operation's format leaves free (30_encoding.md R82). -/
def operandBits : Opcode → Nat
  | .nop | .clr | .kinit | .kend | .mac | .trunc | .gen => 0
  | .kchar => 8
  | .peek => 12
  | .tload | .cload => 64

theorem opcodeMask_eq (op : Opcode) : opcodeMask op = mkWord 0xFF#8 (BitVec.allOnes 64 <<< operandBits op) := by
  cases op <;> decide

theorem opcodeMatch_eq (op : Opcode) : opcodeMatch op = mkWord (opcodeByte op) 0#64 := by
  cases op <;> decide

theorem mkWord_inj {a b : Byte} {x y : Word64} : mkWord a x = mkWord b y ↔ a = b ∧ x = y := by
  constructor
  · intro h
    exact ⟨by simpa using congrArg cmdOp h, by simpa using congrArg cmdData h⟩
  · rintro ⟨rfl, rfl⟩
    rfl

/-- An operand has no bit from bit `n` up when its value is below `2 ^ n`. -/
theorem and_allOnes_shiftLeft_eq_zero_iff {d : Word64} {n : Nat} :
    d &&& (BitVec.allOnes 64 <<< n) = 0#64 ↔ d.toNat < 2 ^ n := by
  constructor
  · intro h
    refine Nat.lt_pow_two_of_testBit _ fun i hi => ?_
    change d.getLsbD i = false
    by_cases h64 : i < 64
    · have hbit : (d &&& (BitVec.allOnes 64 <<< n)).getLsbD i = false := by rw [h, BitVec.getLsbD_zero]
      rw [BitVec.getLsbD_and, BitVec.getLsbD_shiftLeft, BitVec.getLsbD_allOnes] at hbit
      simpa [h64, show ¬ i < n by omega, show i - n < 64 by omega] using hbit
    · exact BitVec.getLsbD_of_ge d i (by omega)
  · intro h
    apply BitVec.eq_of_getLsbD_eq
    intro i _
    by_cases hi : i < n
    · simp [hi]
    · have : d.getLsbD i = false :=
        Nat.testBit_lt_two_pow (h.trans_le (Nat.pow_le_pow_right (by omega) (by omega)))
      simp [this]

/-- A word matches a row when it has the row's opcode byte and no bit above the row's operand (30_encoding.md R84). -/
theorem and_opcodeMask_eq_iff {w : CmdWord} {op : Opcode} :
    w &&& opcodeMask op = opcodeMatch op ↔ cmdOp w = opcodeByte op ∧ (cmdData w).toNat < 2 ^ operandBits op := by
  have hslices : w &&& opcodeMask op = mkWord (cmdOp w) (cmdData w &&& (BitVec.allOnes 64 <<< operandBits op)) := by
    conv_lhs => rw [← mkWord_slices w, opcodeMask_eq, Laws.EncodeRow.and_mkWord]
    congr 1
    exact BitVec.and_allOnes
  rw [hslices, opcodeMatch_eq, mkWord_inj, and_allOnes_shiftLeft_eq_zero_iff]

theorem peek_wellFormed_iff {sp : PeekSpace} {k : Byte} : (Instr.peek sp k).WellFormed ↔ k.toNat < sp.size :=
  decide_eq_true_iff

theorem operandOf_kchar_toNat (ch : Byte) : (operandOf (.kchar ch)).toNat = ch.toNat := by
  simp only [operandOf, toNat_append_eq, BitVec.toNat_ofNat]
  omega

theorem operandOf_peek_toNat (sp : PeekSpace) (k : Byte) :
    (operandOf (.peek sp k)).toNat = 256 * (spaceNumber sp).toNat + k.toNat := by
  simp only [operandOf, toNat_append_eq, BitVec.toNat_ofNat]
  omega

/-- Settles O3: after the opcode byte and the reserved bits, a row's operand is compared as a number, format by format. -/
theorem tableRowsSelectCommands : Obligations.TableRowsSelectCommands := by
  intro w i
  have hdata := cmdData_toNat w
  have hlt := (cmdData w).isLt
  rw [decode_eq_ok_iff, and_opcodeMask_eq_iff, and_assoc]
  refine and_congr_right fun _ => ?_
  rw [BitVec.toNat_eq]
  generalize (cmdData w).toNat = d at *
  cases i with
  | kchar ch =>
    have := ch.isLt
    simp only [opcodeOfInstr, operandBits, operandOf_kchar_toNat, Instr.WellFormed, Instr.wellFormed, and_true]
    omega
  | peek sp k =>
    have := k.isLt
    have := (spaceNumber sp).isLt
    simp only [opcodeOfInstr, operandBits, operandOf_peek_toNat, peek_wellFormed_iff]
    omega
  | tload x | cload x =>
    simp only [opcodeOfInstr, operandBits, operandOf, Instr.WellFormed, Instr.wellFormed, and_true]
    omega
  | nop | clr | kinit | kend | mac | trunc | gen =>
    simp [opcodeOfInstr, operandBits, operandOf, Instr.WellFormed, Instr.wellFormed]

/-! ## The illegal words -/

/-- An opcode byte names no operation exactly when it is none of the eleven. -/
theorem opcodeOf_eq_none_iff {b : Byte} :
    opcodeOf b = none ↔ b.toNat ∉ [0x00, 0x01, 0x10, 0x11, 0x12, 0x20, 0x21, 0x30, 0x31, 0x32, 0x40] := by
  have hbytes : [0x00, 0x01, 0x10, 0x11, 0x12, 0x20, 0x21, 0x30, 0x31, 0x32, 0x40] =
      allOpcodes.map fun op => (opcodeByte op).toNat := rfl
  simp [hbytes, opcodeOf, ← BitVec.toNat_eq]

/-- Some space meets a condition when one of the four does. -/
theorem exists_peekSpace {p : PeekSpace → Prop} :
    (∃ sp, p sp) ↔ p .kblk ∨ p .msg ∨ p .digest ∨ p .digits := by
  constructor
  · rintro ⟨sp, h⟩
    cases sp <;> simp [h]
  · rintro (h | h | h | h) <;> exact ⟨_, h⟩

/-- Format N is legal for the zero operand only (30_encoding.md R85). -/
theorem decodeN_legal_iff {i : Instr} {d : Word64} : (∃ j, decodeN i d = .ok j) ↔ d.toNat = 0 := by
  simp only [decodeN_ok, exists_and_left, exists_eq', and_true]
  exact BitVec.toNat_eq

/-- Format C is legal without reserved bits (30_encoding.md R85). -/
theorem decodeC_legal_iff {d : Word64} : (∃ j, decodeC d = .ok j) ↔ d.toNat < 256 := by
  simp only [decodeC_ok, exists_and_left, exists_eq', and_true]
  exact extractLsb'_upper_eq_zero_iff rfl

/-- A space is named by its number and by no other. -/
theorem spaceOf_eq_some_iff {n : BitVec 4} {sp : PeekSpace} : spaceOf n = some sp ↔ spaceNumber sp = n :=
  ⟨spaceNumber_of_spaceOf, fun h => by rw [← h, spaceOf_spaceNumber]⟩

/-- Format P is legal without reserved bits, for a byte that exists (30_encoding.md R85, R86). -/
theorem decodeP_legal_iff {d : Word64} :
    (∃ j, decodeP d = .ok j) ↔ d.toNat < 4096 ∧
      ∃ sp : PeekSpace, (spaceNumber sp).toNat = d.toNat / 256 % 16 ∧ d.toNat % 256 < sp.size := by
  have hreserved : d.extractLsb' 12 52 = 0#52 ↔ d.toNat < 4096 := extractLsb'_upper_eq_zero_iff rfl
  have hspace : ∀ sp, spaceOf (d.extractLsb' 8 4) = some sp ↔ (spaceNumber sp).toNat = d.toNat / 256 % 16 := by
    intro sp
    rw [spaceOf_eq_some_iff, BitVec.toNat_eq, extractLsb'_space_toNat]
  simp only [decodeP_ok, hreserved, hspace, extractLsb'_lowByte_toNat]
  constructor
  · rintro ⟨j, hd, sp, hsp, hidx, -⟩
    exact ⟨hd, sp, hsp, hidx⟩
  · rintro ⟨hd, sp, hsp, hidx⟩
    exact ⟨_, hd, sp, hsp, hidx, rfl⟩

/-- The illegal operands of `PEEK` (30_encoding.md R85, R86). -/
theorem illegalFields_peek_iff {d : Nat} :
    IllegalFields 0x40 d ↔ 4096 ≤ d ∨ 4 ≤ d / 256 % 16 ∨
      (d / 256 % 16 = 0 ∧ 64 ≤ d % 256) ∨ (d / 256 % 16 = 1 ∧ 8 ≤ d % 256) ∨
      (d / 256 % 16 = 2 ∧ 20 ≤ d % 256) ∨ (d / 256 % 16 = 3 ∧ 6 ≤ d % 256) := by
  simp [IllegalFields]

/-- Under an assigned opcode byte an operand is read exactly when the spec's lists do not name it. -/
theorem decodeOperand_legal_iff {op : Opcode} {d : Word64} :
    (∃ i, decodeOperand op d = .ok i) ↔ ¬ IllegalFields (opcodeByte op).toNat d.toNat := by
  cases op with
  | kchar => simp [decodeOperand, decodeC_legal_iff, IllegalFields, opcodeByte]
  | peek =>
    rw [opcodeByte, BitVec.toNat_ofNat, illegalFields_peek_iff]
    simp only [decodeOperand, decodeP_legal_iff, exists_peekSpace, spaceNumber, PeekSpace.size, BitVec.toNat_ofNat,
      Config.blockLen, Config.msgLen, Config.digestLen, Config.ndigits]
    omega
  | tload | cload => simp [decodeOperand, IllegalFields, opcodeByte]
  | nop | clr | kinit | kend | mac | trunc | gen => simp [decodeOperand, decodeN_legal_iff, IllegalFields, opcodeByte]

/-- The words that decode to a command are those the spec's lists do not name (30_encoding.md R86). -/
theorem decode_legal_iff {w : CmdWord} : (∃ i, decode w = .ok i) ↔ ¬ IllegalWord w := by
  rw [IllegalWord, ← cmdOp_toNat, ← cmdData_toNat]
  cases hop : opcodeOf (cmdOp w) with
  | none => simp [decode, hop, IllegalFields, opcodeOf_eq_none_iff.1 hop]
  | some op =>
    rw [← opcodeByte_of_opcodeOf hop, ← decodeOperand_legal_iff]
    simp [decode, hop]

/-- Settles O4: a word the lists name decodes to an error, whatever it is, and every error has the same effect. -/
theorem illegalWordsSetIllAndNothingElse : Obligations.IllegalWordsSetIllAndNothingElse := by
  intro w
  refine ⟨decode_legal_iff.2, fun hill => ?_⟩
  cases hd : decode w with
  | ok i => exact absurd hill (decode_legal_iff.1 ⟨i, hd⟩)
  | error e =>
    refine ⟨⟨e, rfl⟩, execWord_illegal hd, fun s rest hp => ?_⟩
    rw [step_command hp, execWord_illegal hd, acceptWord_eq hp]
    rfl

end Sys2Proof.Machine
end

section
/-! The step function of a word (30_encoding.md R90, R91, R94), results computed again (R95), and the text form (R88, R89). -/

namespace Sys2Proof.Machine

/-! ## The step -/

/-- Settles O6: the word leaves the host's list, is counted, and has its effect. -/
theorem stepRunsTheDecodedCommand : Obligations.StepRunsTheDecodedCommand := by
  intro s w rest hp
  have hstep : step s = execWord w { s with pending := rest, cp := s.cp + 1 } := by
    rw [step_command hp, acceptWord_eq hp]
  exact ⟨hstep, fun i hd => by rw [hstep, execWord_legal hd]⟩

/-- Settles O7: the condition written out per command is `precond`, and a command without it is suppressed. -/
theorem stepFunctionOfTheSpec : Obligations.StepFunctionOfTheSpec := by
  intro w s
  refine ⟨fun e hd => execWord_illegal hd s, ?_⟩
  intro i hd admitted
  have hadmitted : admitted = precond i s := by cases i <;> rfl
  rw [hadmitted, execWord_legal hd]
  exact ⟨exec_suppressed, fun _ => rfl⟩

/-- A refused character is a symbol of an open, valid ingest at the key length limit (40_base32_decoder.md R117). -/
theorem exec_kchar_refused {ch : Byte} {s : State} {r : Refusal} (h : exec (.kchar ch) s = .refused r) :
    s.status.ka = true ∧ s.status.isf = false ∧ (∃ v, charClass ch = .symbol v) ∧ reachesKeyLimit s = true := by
  cases hka : s.status.ka with
  | false =>
    rw [exec_suppressed (i := .kchar ch) hka] at h
    cases h
  | true =>
    cases hisf : s.status.isf with
    | true =>
      rw [exec_kchar_failed ch hka hisf] at h
      cases h
    | false =>
      cases hc : charClass ch with
      | strip =>
        rw [exec_kchar_strip hka hisf hc] at h
        cases h
      | invalid =>
        rw [exec_kchar_invalid hka hisf hc] at h
        cases h
      | symbol v =>
        cases hl : reachesKeyLimit s with
        | false =>
          rw [exec_kchar_symbol hka hisf hc hl] at h
          cases h
        | true => exact ⟨rfl, rfl, ⟨v, rfl⟩, rfl⟩

/-- At the key length limit one more byte takes `KLEN` to 2^61 or beyond (40_base32_decoder.md R117). -/
theorem klen_of_reachesKeyLimit {s : State} (h : reachesKeyLimit s = true) : 2 ^ 61 ≤ s.klen.toNat + 1 :=
  of_decide_eq_true (Bool.and_eq_true_iff.1 h).2

/-- Settles O11: every move but a command has a next state, and so has every command but a refused character. -/
theorem everyStepHasANextState : Obligations.EveryStepHasANextState := by
  intro s
  cases hp : s.pending with
  | nil => exact .inl ⟨_, step_idle hp⟩
  | cons m rest =>
    cases m with
    | reset => exact .inl ⟨_, step_reset hp⟩
    | command w =>
      rw [step_command hp]
      cases hd : decode w with
      | error e => exact .inl ⟨_, execWord_illegal hd _⟩
      | ok i =>
        rw [execWord_legal hd]
        rcases exec_outcome i (acceptWord s) with hnext | ⟨ch, rfl, hrefused⟩
        · exact .inl hnext
        · obtain ⟨hka, hisf, ⟨v, hc⟩, hl⟩ := exec_kchar_refused hrefused
          exact .inr ⟨hrefused, w, rest, ch, v, rfl, hd, hc, hka, hisf, klen_of_reachesKeyLimit hl⟩

/-! ## Results computed again -/

/-- Where the digest is that of the key and the counter, `MAC` before `TRUNC` makes no difference. -/
theorem truncCore_macCore_invalCode {s : State} (hdv : s.status.dv = true) (hd : s.digest = macDigest s.kblk s.ctr) :
    truncCore (macCore (invalCode s)) = truncCore s := by
  simp [truncCore, macCore, invalCode, setOv, setDv, ← hd, ← hdv]

/-- `TRUNC` of a state that already has the code of its digest leaves it as it is. -/
theorem truncCore_of_valid {s : State} (hov : s.status.ov = true) (ho : s.offset = truncOffset s.digest)
    (hb : s.bin = truncBin s.digest) (hc : s.code = codeOf s.bin) (hds : s.digits = digitsOf s.code) :
    truncCore s = s := by
  rw [truncCore, ← ho, ← hb, ← hc, ← hds, setOv, ← hov]

/-- Settles O44: the flags promise that the results are those of the key and the counter, so computing them again writes
what stands there. -/
theorem reissueRecomputes : Obligations.ReissueRecomputes := by
  intro s hs
  constructor
  · intro hdv
    obtain ⟨hkv, hcv, hd⟩ := hs.digestValid hdv
    exact ⟨_, exec_mac_valid hkv hcv, by simp [hd], rfl⟩
  · intro hov
    obtain ⟨hdv, ho, hb, hc, hds⟩ := hs.codeValid hov
    obtain ⟨hkv, hcv, hd⟩ := hs.digestValid hdv
    have htrunc : truncCore s = s := truncCore_of_valid hov ho hb hc hds
    exact ⟨by rw [exec_trunc_valid hdv, htrunc],
      by rw [exec_gen_valid hkv hcv, truncCore_macCore_invalCode hdv hd, htrunc]⟩

/-! ## The text form -/

/-- A line with a mnemonic alone is no `PEEK`. -/
theorem asmPlain_wellFormed {cs : List Char} {i : Instr} (h : asmPlain cs = some i) : i.WellFormed := by
  unfold asmPlain at h
  split_ifs at h <;> cases h <;> rfl

/-- The commands of `SECRET` have words (30_encoding.md R89). -/
theorem secretProgram_wellFormed (secret : List Byte) : ∀ i ∈ secretProgram secret, i.WellFormed := by
  intro i hi
  simp only [secretProgram, List.mem_cons, List.mem_append, List.mem_map, List.not_mem_nil, or_false] at hi
  rcases hi with rfl | ⟨ch, -, rfl⟩ | rfl <;> rfl

/-- The commands of `HOTP` have words (30_encoding.md R89). -/
theorem hotpProgram_wellFormed (secret : List Byte) (c : Word64) : ∀ i ∈ hotpProgram secret c, i.WellFormed := by
  intro i hi
  simp only [hotpProgram, List.mem_append, List.mem_cons, List.not_mem_nil, or_false] at hi
  rcases hi with hi | rfl | rfl
  · exact secretProgram_wellFormed secret i hi
  · rfl
  · rfl

/-- An operand read into one command that has a word. -/
theorem wellFormed_of_map_singleton {α : Type} {o : Option α} {f : α → Instr} (hf : ∀ a, (f a).WellFormed)
    {is : List Instr} (h : (o.map fun a => [f a]) = some is) : ∀ i ∈ is, i.WellFormed := by
  obtain ⟨a, -, rfl⟩ := Option.map_eq_some_iff.1 h
  simpa using hf a

theorem asmOne_wellFormed {cs : List Char} {operand : AsmToken} {is : List Instr} (h : asmOne cs operand = some is) :
    ∀ i ∈ is, i.WellFormed := by
  cases operand with
  | word n =>
    simp only [asmOne] at h
    split_ifs at h <;> exact wellFormed_of_map_singleton (fun _ => rfl) h
  | char c =>
    simp only [asmOne] at h
    split_ifs at h
    exact wellFormed_of_map_singleton (fun _ => rfl) h
  | string body =>
    simp only [asmOne] at h
    split_ifs at h
    obtain ⟨secret, -, rfl⟩ := Option.map_eq_some_iff.1 h
    exact secretProgram_wellFormed secret
  | comma => cases h

theorem asmTwo_wellFormed {cs : List Char} {first second : AsmToken} {is : List Instr}
    (h : asmTwo cs first second = some is) : ∀ i ∈ is, i.WellFormed := by
  unfold asmTwo at h
  split at h
  · split_ifs at h
    split at h
    · split_ifs at h with hidx
      cases h
      simpa [peek_wellFormed_iff] using hidx
    · cases h
  · split at h
    · split_ifs at h
      · cases h
        exact totpProgram_wellFormed _ _
      · cases h
        exact hotpProgram_wellFormed _ _
    · cases h
  · cases h

/-- Settles O53: of the commands a line can give only `PEEK` could have no word, and there the index is checked. -/
theorem assembledCommandsHaveWords : Obligations.AssembledCommandsHaveWords := by
  intro line is h
  unfold assemble at h
  split at h
  · cases h
    simp
  · obtain ⟨i, hi, rfl⟩ := Option.map_eq_some_iff.1 h
    simpa using asmPlain_wellFormed hi
  · exact asmOne_wellFormed h
  · exact asmTwo_wellFormed h
  · cases h

end Sys2Proof.Machine
end

section
/-! B32, the secret decoder, command by command (40_base32_decoder.md R102 to R117): the classes of the characters, what
`KINIT`, `KCHAR` and `KEND` write, and the decode as a stream. -/

namespace Sys2Proof.Machine

/-! ## The character classes -/

/-- The strip characters by their codes (40_base32_decoder.md R103). -/
theorem mem_strip_iff (c : Byte) : c ∈ Config.strip ↔ c.toNat ∈ [0x09, 0x0A, 0x0B, 0x0C, 0x0D, 0x20, 0x2D] := by
  simp [Config.strip, BitVec.toNat_eq]

/-- Settles O21: the class of a code is its membership in `STRIP`, then its lookup, and the codes are 256. -/
theorem characterClasses : Obligations.CharacterClasses := by
  refine ⟨fun c => ?_, by decide +kernel, by decide +kernel⟩
  rw [charClass, if_congr (mem_strip_iff c) rfl rfl, b32val]
  split_ifs <;> rfl

/-- The code of a letter's other case. -/
theorem lowerCase_toNat {c : Byte} (hhi : c.toNat ≤ 0x5A) : (c + 0x20#8).toNat = c.toNat + 0x20 := by
  rw [BitVec.toNat_add, BitVec.toNat_ofNat]; omega

/-- The value of a letter is that of its other case (40_base32_decoder.md R102). -/
theorem b32val_lowerCase {c : Byte} (hlo : 0x41 ≤ c.toNat) (hhi : c.toNat ≤ 0x5A) : b32val (c + 0x20#8) = b32val c := by
  rw [b32val, b32val, lowerCase_toNat hhi, if_neg (by omega), if_pos (by omega), if_pos ⟨hlo, hhi⟩,
    show c.toNat + 0x20 - 0x61 = c.toNat - 0x41 by omega]

/-- A code above those of `STRIP` is looked up (40_base32_decoder.md R103). -/
theorem charClass_eq_b32val {c : Byte} (h : 0x2D < c.toNat) :
    charClass c = (b32val c).elim .invalid .symbol := by
  rw [charClass, if_neg (by rw [mem_strip_iff]; simp; omega)]
  cases b32val c <;> rfl

/-- A letter and its other case are of one class (40_base32_decoder.md R116). -/
theorem charClass_lowerCase {c : Byte} (hlo : 0x41 ≤ c.toNat) (hhi : c.toNat ≤ 0x5A) :
    charClass (c + 0x20#8) = charClass c := by
  rw [charClass_eq_b32val (by rw [lowerCase_toNat hhi]; omega), charClass_eq_b32val (by omega), b32val_lowerCase hlo hhi]

/-- A character acts by its class alone (40_base32_decoder.md R105). -/
theorem exec_kchar_congr {c d : Byte} (h : charClass c = charClass d) (s : State) :
    exec (.kchar c) s = exec (.kchar d) s := by
  cases hka : s.status.ka with
  | false => rw [exec_suppressed (i := .kchar c) hka, exec_suppressed (i := .kchar d) hka]
  | true => rw [exec_kchar_open c hka, exec_kchar_open d hka, kcharBody, kcharBody, h]

/-- Settles O27: a letter and its other case are of one class. -/
theorem letterCaseIsIgnored : Obligations.LetterCaseIsIgnored :=
  fun _ s hlo hhi => exec_kchar_congr (charClass_lowerCase hlo hhi).symm s

/-! ## `KINIT`, and the ingest that has failed -/

/-- Settles O22: `KINIT` as one update. -/
theorem kinitOpensAnIngest : Obligations.KinitOpensAnIngest := execKinit_eq

/-- Settles O26: each of the characters leaves the failed ingest as it is. -/
theorem failFastIgnoresTheRest : Obligations.FailFastIgnoresTheRest :=
  fun cs _ hka hisf => feed_failed cs hka hisf

/-! ## The key length limit -/

/-- A symbol that would take `KLEN` to its limit has no meaning (40_base32_decoder.md R117). -/
theorem exec_kchar_atLimit {ch : Byte} {v : Symbol} {s : State} (hka : s.status.ka = true) (hisf : s.status.isf = false)
    (hc : charClass ch = .symbol v) (hl : reachesKeyLimit s = true) :
    exec (.kchar ch) s = .refused .keyLengthLimit := by
  simp [exec_kchar_open ch hka, kcharBody, hisf, hc, hl]

/-- A symbol takes `KLEN` to its limit when it completes a byte and one more byte is 2^61 (40_base32_decoder.md R117). -/
theorem reachesKeyLimit_iff {s : State} (hnb : s.nb.toNat ≤ 7) :
    reachesKeyLimit s = true ↔ 3 ≤ s.nb.toNat ∧ 2 ^ 61 ≤ s.klen.toNat + 1 := by
  rw [reachesKeyLimit, Bool.and_eq_true, emitsByte_iff hnb, decide_eq_true_iff, Config.klenLimit]

/-- A symbol is below the limit when it completes no byte or one more byte is below 2^61. -/
theorem reachesKeyLimit_eq_false_iff {s : State} (hnb : s.nb.toNat ≤ 7) :
    reachesKeyLimit s = false ↔ (3 ≤ s.nb.toNat → s.klen.toNat + 1 < 2 ^ 61) := by
  rw [← Bool.not_eq_true, reachesKeyLimit_iff hnb, not_and, Nat.not_le]

/-- Settles O12: of all the cases of `KCHAR` only a symbol at the limit is refused. -/
theorem kcharRefusedAtKeyLimit : Obligations.KcharRefusedAtKeyLimit := by
  intro ch s hnb
  constructor
  · intro h
    obtain ⟨hka, hisf, hc, hl⟩ := exec_kchar_refused h
    exact ⟨hka, hisf, hc, (reachesKeyLimit_iff hnb).1 hl⟩
  · rintro ⟨hka, hisf, ⟨v, hc⟩, hl⟩
    exact exec_kchar_atLimit hka hisf hc ((reachesKeyLimit_iff hnb).2 hl)

/-! ## The shift register, in its range -/

section
variable {s : State} (v : Symbol)

/-- A symbol with fewer than three live bits enters `ACC` and nothing is emitted (40_base32_decoder.md R106). -/
theorem shiftIn_eq_noByte (hnb : s.nb.toNat < 3) (hacc : s.acc.toNat < 2 ^ 7) :
    shiftIn v s =
      { s with
        acc := BitVec.ofNat 12 (s.acc.toNat * 32 + v.toNat)
        nb := BitVec.ofNat 4 (s.nb.toNat + 5) } := by
  have hemit : emitsByte s = false :=
    Bool.eq_false_of_not_eq_true fun h => absurd ((emitsByte_iff (by omega)).1 h) (by omega)
  rw [shiftIn_noByte v hemit, ← accShifted_toNat v hacc, ← nbShifted_toNat (by omega), BitVec.ofNat_toNat,
    BitVec.ofNat_toNat, BitVec.setWidth_eq, BitVec.setWidth_eq]

/-- A symbol with at least three live bits emits the eight oldest bits and leaves the others in `ACC`
(40_base32_decoder.md R106). -/
theorem shiftIn_eq_byte (hlo : 3 ≤ s.nb.toNat) (hhi : s.nb.toNat ≤ 7) (hacc : s.acc.toNat < 2 ^ 7) :
    shiftIn v s =
      keyPush (BitVec.ofNat 8 ((s.acc.toNat * 32 + v.toNat) / 2 ^ (s.nb.toNat - 3)))
        { s with
          acc := BitVec.ofNat 12 ((s.acc.toNat * 32 + v.toNat) % 2 ^ (s.nb.toNat - 3))
          nb := BitVec.ofNat 4 (s.nb.toNat - 3) } := by
  have hleft := nbLeft_toNat hhi hlo
  have hbyte : (accShifted s.acc v >>> (s.nb + 5#4 - 8#4).toNat).setWidth 8 =
      BitVec.ofNat 8 ((s.acc.toNat * 32 + v.toNat) / 2 ^ (s.nb.toNat - 3)) := by
    apply BitVec.eq_of_toNat_eq
    rw [BitVec.toNat_setWidth, BitVec.toNat_ushiftRight, accShifted_toNat v hacc, hleft, Nat.shiftRight_eq_div_pow,
      BitVec.toNat_ofNat]
  have hkept : accShifted s.acc v &&& ((1#12 <<< (s.nb + 5#4 - 8#4).toNat) - 1#12) =
      BitVec.ofNat 12 ((s.acc.toNat * 32 + v.toNat) % 2 ^ (s.nb.toNat - 3)) := by
    rw [← accShifted_toNat v hacc, ← hleft, ← keepLive_toNat _ (by omega), BitVec.ofNat_toNat, BitVec.setWidth_eq]
  rw [shiftIn_byte v ((emitsByte_iff hhi).2 hlo), hbyte, hkept, ← hleft, BitVec.ofNat_toNat, BitVec.setWidth_eq]

end

/-- `ACC` with at most 7 live bits and no other set. -/
theorem acc_lt_of_live {s : State} {n : Nat} (hn : n ≤ 7) (h : s.acc.toNat < 2 ^ n) : s.acc.toNat < 2 ^ 7 :=
  h.trans_le (Nat.pow_le_pow_right (by omega) hn)

/-- Settles O23: the cases of `KCHAR` one by one, the last with the shift register's new value. -/
theorem kcharWithoutAByte : Obligations.KcharWithoutAByte := by
  intro ch s
  refine ⟨exec_suppressed (i := .kchar ch), exec_kchar_failed ch, exec_kchar_strip, exec_kchar_invalid, ?_⟩
  intro v hka hisf hc hnb hacc
  have hl : reachesKeyLimit s = false :=
    (reachesKeyLimit_eq_false_iff (by omega)).2 fun h3 => absurd h3 (by omega)
  rw [exec_kchar_symbol hka hisf hc hl, shiftIn_eq_noByte (s := { s with kne := true }) v hnb (acc_lt_of_live (by omega) hacc)]

/-- `key_push` in one update, whether the block is full or not (40_base32_decoder.md R108). -/
theorem keyPush_eq (b : Byte) (s : State) :
    keyPush b s =
      { s with
        klong := s.klong || decide (s.kfill.toNat = 64)
        h := if s.kfill.toNat = 64 then sha1Compress (if s.klong then s.h else sha1Iv) s.kblk else s.h
        kblk := (if s.kfill.toNat = 64 then zeroBlock else s.kblk).setIfInBounds
          (if s.kfill.toNat = 64 then 0 else s.kfill.toNat) b
        kfill := if s.kfill.toNat = 64 then 1#7 else s.kfill + 1#7
        klen := s.klen + 1#64 } := by
  by_cases h : s.kfill = 64#7
  · simp [keyPush_full b h, h]
  · have hn : s.kfill.toNat ≠ 64 := fun h' => h (BitVec.eq_of_toNat_eq h')
    simp [keyPush_room b h, hn]

/-- Settles O24: the symbol is below the limit, completes a byte, and `key_push` takes the byte. -/
theorem kcharStoresAByte : Obligations.KcharStoresAByte := by
  intro ch v s hka hisf hc hlo hhi hacc _ hlim
  have hl : reachesKeyLimit s = false := (reachesKeyLimit_eq_false_iff hhi).2 fun _ => hlim
  rw [exec_kchar_symbol hka hisf hc hl,
    shiftIn_eq_byte (s := { s with kne := true }) v hlo hhi (acc_lt_of_live hhi hacc), keyPush_eq]
  rfl

/-! ## `KEND` -/

/-- The pending bytes of a long key and the padding are one block, or two where more than 55 bytes are pending
(40_base32_decoder.md R111). -/
theorem keyTail_length {s : State} (hlo : 1 ≤ s.kfill.toNat) (hhi : s.kfill.toNat ≤ 64) :
    (keyTail s).length = if s.kfill.toNat ≤ 55 then 64 else 128 := by
  rw [keyTail, List.length_append, sha1Pad_length, List.length_take, Block.length_toList]
  split <;> omega

/-- The hash of a long key is completed in one compression, or two (40_base32_decoder.md R111). -/
theorem sha1Blocks_keyTail {s : State} (hlo : 1 ≤ s.kfill.toNat) (hhi : s.kfill.toNat ≤ 64) :
    sha1Blocks ((keyTail s).length / 64) s.h (keyTail s) =
      if s.kfill.toNat ≤ 55 then sha1Compress s.h (blockOf (keyTail s))
      else sha1Compress (sha1Compress s.h (blockOf (keyTail s))) (blockOf ((keyTail s).drop 64)) := by
  rw [keyTail_length hlo hhi]
  split <;> rfl

/-- Settles O25: the cases of `KEND` one by one, the last with the compressions that complete the hash. -/
theorem kendClosesTheIngest : Obligations.KendClosesTheIngest := by
  intro s
  refine ⟨exec_suppressed (i := .kend), ?_, ?_, ?_, ?_⟩
  · intro hka hisf
    rw [exec_kend_open hka, kendBody_invalid hisf, zeroChain]
  · intro hka hisf hkne
    rw [exec_kend_open hka, kendBody_empty hisf hkne]
  · intro hka hisf hkne hlong
    rw [exec_kend_open hka, kendBody_short hisf hkne hlong]
  · intro hka hisf hkne hlong hlo hhi
    rw [exec_kend_open hka, kendBody_long hisf hkne hlong, sha1Blocks_keyTail hlo hhi]
    rfl

/-! ## The decode as a stream -/

/-- Settles O28: the ingest holds the key of the symbols, and the key registers are those of that key. -/
theorem streamingDecodeIsTheDecode : Obligations.StreamingDecodeIsTheDecode := by
  intro s₀ s cs vs hinit hvs hlim
  have hkey := symbolsKey_length vs
  obtain ⟨t, hrun, ht, hframe⟩ := feed_ingested (execKinit_ingested hinit) hvs (by rwa [List.nil_append, hkey])
  rw [List.nil_append] at ht
  obtain ⟨-, -, hbits, hlive, hseen, hlen, hlong, hfill, hchain, hblock⟩ := ht
  rw [hkey] at hlen hlong hfill hchain
  rw [pendingBlock, hkey] at hblock
  refine ⟨t, hrun, hbits, hlive, hlen, hseen, fun hshort => ?_, fun hl => ?_, hframe⟩
  · rw [fullBlocks_short hshort] at hfill hblock
    exact ⟨hlong.trans (decide_eq_false (by omega)), hfill, by rw [hchain, if_neg (by omega)], hblock⟩
  · exact ⟨by rw [hlong, decide_eq_true hl], hfill, by rw [hchain, if_pos hl]; rfl, hblock⟩

end Sys2Proof.Machine
end

section
/-! The round trip of the Base32 encoding (40_base32_decoder.md R100, R118): the encoding packs the bits of the bytes into
symbols, and the decode packs them back. -/

namespace Sys2Proof.Machine

/-- The first `n` symbols of a bit sequence, five bits each (40_base32_decoder.md R118). -/
def packSymbols : Nat → List Bool → List Symbol
  | 0, _ => []
  | n + 1, bits => BitVec.ofNat 5 (bitsValue (bits.take 5)) :: packSymbols n (bits.drop 5)

@[simp] theorem packSymbols_length (n : Nat) (bits : List Bool) : (packSymbols n bits).length = n := by
  induction n generalizing bits with
  | zero => rfl
  | succ n ih => rw [packSymbols, List.length_cons, ih]

/-- The character of a symbol is looked up as the symbol (40_base32_decoder.md R102). -/
theorem charClass_symbolChar (v : Symbol) : charClass (symbolChar v) = .symbol v := by
  revert v; decide

/-- The symbols of packed characters are the packed symbols. -/
theorem secretSymbols_packChars (n : Nat) (bits : List Bool) :
    secretSymbols (packChars n bits) = some (packSymbols n bits) := by
  induction n generalizing bits with
  | zero => rfl
  | succ n ih => rw [packChars, secretSymbols, charClass_symbolChar]; simp only [ih]; rfl

/-- Five bits are those of the symbol they make. -/
theorem symbolBits_ofNat_bitsValue {bits : List Bool} (h : bits.length = 5) :
    symbolBits (BitVec.ofNat 5 (bitsValue bits)) = bits := by
  match bits, h with
  | [a, b, c, d, e], _ => revert a b c d e; decide

/-- The bits of the packed symbols are the bits they were packed from. -/
theorem symbolsBits_packSymbols {n : Nat} {bits : List Bool} (h : 5 * n ≤ bits.length) :
    symbolsBits (packSymbols n bits) = bits.take (5 * n) := by
  induction n generalizing bits with
  | zero => rfl
  | succ n ih =>
    rw [packSymbols, symbolsBits, List.flatMap_cons, ← symbolsBits, ih (by rw [List.length_drop]; omega),
      symbolBits_ofNat_bitsValue (by rw [List.length_take]; omega), ← List.take_add, show 5 + 5 * n = 5 * (n + 1) by ring]

/-- The bytes packed from the bits of a byte string are the byte string. -/
theorem packBytes_flatMap_byteBits (bytes : List Byte) : packBytes bytes.length (bytes.flatMap byteBits) = bytes := by
  induction bytes with
  | nil => rfl
  | cons b bytes ih =>
    rw [List.flatMap_cons, List.length_cons, packBytes, List.take_left' (byteBits_length b),
      List.drop_left' (byteBits_length b), ih, bitsValue_byteBits, BitVec.ofNat_toNat, BitVec.setWidth_eq]

theorem flatMap_byteBits_length (bytes : List Byte) : (bytes.flatMap byteBits).length = 8 * bytes.length := by
  simp [List.length_flatMap, Nat.mul_comm]

/-- Symbols enough for a byte string, and no byte more, are a key of it: the bits below its last byte are dropped
(40_base32_decoder.md R100). -/
theorem symbolsKey_packSymbols {n : Nat} {bytes : List Byte} {pad : List Bool} (hn : 5 * n / 8 = bytes.length)
    (hpad : 5 * n ≤ 8 * bytes.length + pad.length) :
    symbolsKey (packSymbols n (bytes.flatMap byteBits ++ pad)) = bytes := by
  have hlen := flatMap_byteBits_length bytes
  rw [symbolsKey, packSymbols_length, hn, symbolsBits_packSymbols (by rw [List.length_append]; omega),
    List.take_append, List.take_of_length_le (by omega), packBytes_append _ _ _ (by omega), packBytes_flatMap_byteBits]

/-- Settles O31: the encoding's characters are its symbols, `ceil(8n / 5)` of them, and their key is the byte string. -/
theorem base32RoundTrip : Obligations.Base32RoundTrip := by
  intro bytes hne
  have hpos := List.length_pos_iff.2 hne
  refine b32Decode_eq_some_iff.2 ⟨_, secretSymbols_packChars _ _, ?_, symbolsKey_packSymbols ?_ ?_⟩
  · apply List.ne_nil_of_length_pos
    rw [packSymbols_length, Config.symW]
    omega
  · rw [Config.symW]
    omega
  · rw [List.length_replicate, Config.symW]
    omega

end Sys2Proof.Machine
end

section
/-! CTR, the counter serializer (41_counter_serializer.md R131 to R134): the message is the counter in base 256, and
`TLOAD` and `CLOAD` load a counter. -/

namespace Sys2Proof.Machine

/-! ## The message -/

/-- A byte of the serialised counter as a number (41_counter_serializer.md R131). -/
theorem ser64_toNat (c : Word64) (i : Nat) : (ser64 c i).toNat = c.toNat / 2 ^ (8 * (7 - i)) % 256 := by
  rw [ser64, BitVec.toNat_setWidth, BitVec.toNat_ushiftRight, Nat.shiftRight_eq_div_pow]

theorem be64_getElem (c : Word64) {i : Nat} (h : i < 8) : (be64 c)[i] = ser64 c i := Vector.getElem_ofFn h

theorem be64_toList (c : Word64) : (be64 c).toList = (List.range 8).map (ser64 c) := rfl

/-- The first bytes of the serialised counter, read in base 256, are the counter without its other bytes: one more byte
is the remainder that goes back to the quotient (41_counter_serializer.md R131). -/
theorem foldl_ser64 (c : Word64) {n : Nat} (hn : n ≤ 8) :
    (((List.range n).map (ser64 c)).map BitVec.toNat).foldl (fun m b => 256 * m + b) 0 =
      c.toNat / 2 ^ (8 * (8 - n)) := by
  induction n with
  | zero => exact (Nat.div_eq_of_lt c.isLt).symm
  | succ n ih =>
    have hpow : 2 ^ (8 * (8 - n)) = 2 ^ (8 * (7 - n)) * 256 := by
      rw [show 8 * (8 - n) = 8 * (7 - n) + 8 by omega, pow_add]
      rfl
    rw [List.range_succ, List.map_append, List.map_append, List.foldl_append, ih (by omega)]
    simp only [List.map_cons, List.map_nil, List.foldl_cons, List.foldl_nil, ser64_toNat]
    rw [hpow, ← Nat.div_div_eq_div_mul, Nat.div_add_mod, show 8 - (n + 1) = 7 - n by omega]

/-- The serialised counter, read in base 256, is the counter (41_counter_serializer.md R131). -/
theorem foldl_be64 (c : Word64) : ((be64 c).toList.map BitVec.toNat).foldl (fun n b => 256 * n + b) 0 = c.toNat := by
  rw [be64_toList, foldl_ser64 c le_rfl, Nat.sub_self, Nat.mul_zero, pow_zero, Nat.div_one]

/-- Settles O35: each byte is a digit of the counter in base 256, and the eight of them read back are all of it. -/
theorem messageIsTheCounterBigEndian : Obligations.MessageIsTheCounterBigEndian := by
  intro s
  refine ⟨fun i h => ?_, ?_⟩
  · rw [msgOf, be64_getElem s.ctr h, ser64_toNat]
  · rw [msgOf, foldl_be64]

/-! ## `TLOAD` and `CLOAD` -/

/-- A counter is loaded in one update: every register the update does not name keeps its value
(41_counter_serializer.md R132, R133). -/
theorem loadCounter_eq (c : Counter) (s : State) :
    loadCounter c s =
      { s with
        ctr := c, digest := Vector.replicate 20 0#8, offset := 0#4, bin := 0#31
        code := 0#20, digits := Vector.replicate 6 0#8
        status := { s.status with cv := true, dv := false, ov := false } } := rfl

theorem exec_cload (c : Word64) (s : State) : exec (.cload c) s = .next (loadCounter c s) := rfl

/-- The window of a 64-bit time is below 2^60, so no bit of it is lost in `CTR` (41_counter_serializer.md R132). -/
theorem window_lt (x : Word64) : x.toNat / 30 < 2 ^ 60 := by
  have := x.isLt
  omega

theorem counterOf_toNat (x : Word64) : (counterOf x).toNat = x.toNat / 30 :=
  Nat.mod_eq_of_lt ((window_lt x).trans (by decide))

/-- Two times have the same counter exactly when they lie in the same window (41_counter_serializer.md R134). -/
theorem counterOf_inj {x y : Word64} : counterOf x = counterOf y ↔ x.toNat / 30 = y.toNat / 30 := by
  rw [← BitVec.toNat_inj, counterOf_toNat, counterOf_toNat]

/-- The state after a load tells which counter was loaded. -/
theorem loadCounter_inj {c d : Counter} {s : State} : loadCounter c s = loadCounter d s ↔ c = d :=
  ⟨fun h => congrArg State.ctr h, fun h => h ▸ rfl⟩

/-- Settles O32: `TLOAD` loads the counter of the time, in one update. -/
theorem tloadDividesTheTime : Obligations.TloadDividesTheTime :=
  fun x s => ⟨(exec_tload x s).trans (congrArg _ (loadCounter_eq _ s)), window_lt x⟩

/-- Settles O33: `CLOAD` loads the counter given to it, in one update, and `TLOAD` loads the counter of the time. -/
theorem cloadStoresTheCounter : Obligations.CloadStoresTheCounter :=
  fun x s => ⟨(exec_cload x s).trans (congrArg _ (loadCounter_eq x s)), (exec_tload x s).trans (exec_cload _ s).symm⟩

/-- Settles O34: the state after `TLOAD` tells the counter of the time, and the counter tells the window. -/
theorem sameWindowSameState : Obligations.SameWindowSameState := by
  intro x y s
  rw [exec_tload, exec_tload, Host.Outcome.next.injEq, loadCounter_inj, counterOf_inj]

end Sys2Proof.Machine
end

section
/-! HMAC-SHA1 (42_hmac_sha1.md R146 to R156): the padding of SHA-1, the key block that `SECRET` makes, the digest that
`MAC` writes, and what the digest depends on. -/

namespace Sys2Proof.Machine

/-! ## The padding -/

/-- The zero bytes of the padding, the fewest that leave 8 bytes of a block for the length (42_hmac_sha1.md R146). -/
def padZeros (r : Nat) : Nat := (119 - r % 64) % 64

theorem sha1Pad_eq (r len : Nat) :
    sha1Pad r len = 0x80#8 :: (List.replicate (padZeros r) 0x00#8 ++ (be64 (BitVec.ofNat 64 (8 * len))).toList) := rfl

theorem sha1Pad_length_padZeros (r len : Nat) : (sha1Pad r len).length = padZeros r + 9 := sha1Pad_length r len

theorem padZeros_lt (r : Nat) : padZeros r < 64 := Nat.mod_lt _ (by decide)

/-- The pending bytes, the byte 0x80, the zeros and the length are whole blocks (42_hmac_sha1.md R146). -/
theorem padZeros_completes (r : Nat) : (r + (padZeros r + 9)) % 64 = 0 := by
  unfold padZeros
  omega

/-- Between the byte 0x80 and the length stand the zeros (42_hmac_sha1.md R146). -/
theorem sha1Pad_getElem?_zero {r i : Nat} (len : Nat) (h1 : 1 ≤ i) (hi : i < padZeros r + 1) :
    (sha1Pad r len)[i]? = some 0x00#8 := by
  obtain ⟨j, rfl⟩ := Nat.exists_eq_add_of_le' h1
  have hj : j < padZeros r := by omega
  rw [sha1Pad_eq, List.getElem?_cons_succ, List.getElem?_append_left (by simpa using hj), List.getElem?_replicate,
    if_pos hj]

/-- The length in bits is all that follows the zeros (42_hmac_sha1.md R146). -/
theorem sha1Pad_drop (r len : Nat) :
    (sha1Pad r len).drop (padZeros r + 1) = (be64 (BitVec.ofNat 64 (8 * len))).toList := by
  rw [sha1Pad_eq, List.drop_succ_cons]
  exact List.drop_left' List.length_replicate

/-- Settles O38: the padding is 0x80, fewer than 64 zeros, and the eight bytes of the length. -/
theorem paddingCompletesTheBlock : Obligations.PaddingCompletesTheBlock := by
  intro r len
  have hz := padZeros_lt r
  rw [sha1Pad_length_padZeros]
  refine ⟨padZeros_completes r, by omega, by omega, rfl, ?_, sha1Pad_drop r len⟩
  intro i h1 hi
  exact sha1Pad_getElem?_zero len h1 (by omega)

/-! ## `SECRET` -/

/-- What is no decoder register is the same in states that differ in those at most. -/
theorem SameButDecoder.frame {s t : State} (h : SameButDecoder s t) :
    t.ctr = s.ctr ∧ t.rdata = s.rdata ∧ t.pending = s.pending ∧ t.cp = s.cp := by
  rw [h]
  exact ⟨rfl, rfl, rfl, rfl⟩

/-- Settles O29: the ingest holds the key of the symbols, `KEND` makes the key block of it, and neither writes what is
no decoder register. -/
theorem secretMakesItsKeyBlock : Obligations.SecretMakesItsKeyBlock := by
  intro s secret key hdec hlim
  obtain ⟨vs, hvs, hne, rfl⟩ := b32Decode_eq_some_iff.1 hdec
  obtain ⟨u, hrun, hu, hsame⟩ := feed_ingested (execKinit_ingested (execKinit_eq s)) hvs hlim
  obtain ⟨hctr, hrdata, hpending, hcp⟩ := hsame.frame
  obtain ⟨k, hk, hend⟩ := kendBody_ingested hu hne
  have hkne : u.kne = true := by rw [hu.seen]; simpa using hne
  refine ⟨_, runCommands_secretProgram (execKinit_eq s) hrun hu.opened, ?_⟩
  rw [hend, hsame.status]
  exact ⟨hk, hu.key.length, hu.key.long, hkne, rfl, rfl, rfl, rfl, hctr, hrdata, hpending, hcp, rfl⟩

/-! ## `MAC` -/

/-- `MAC` in one update: every register the update does not name keeps its value (42_hmac_sha1.md R152). -/
theorem macCore_invalCode_eq (s : State) :
    macCore (invalCode s) =
      { s with
        digest := macDigest s.kblk s.ctr, offset := 0#4, bin := 0#31, code := 0#20
        digits := Vector.replicate 6 0#8
        status := { s.status with dv := true, ov := false } } := rfl

/-- The block of a padded key, byte by byte (42_hmac_sha1.md R153). -/
theorem blockOf_xorPad (pad : Byte) (k : Block) : blockOf (xorPad pad k.toList) = padKey pad k := by
  rw [← padKey_toList, blockOf_toList]

/-- Settles O36: `MAC` without its precondition is suppressed; with it the digest is four compressions, of the padded
keys and the two tails. -/
theorem macWritesTheDigest : Obligations.MacWritesTheDigest := by
  intro s
  refine ⟨fun h => exec_suppressed (Bool.and_eq_false_iff.2 h), fun hkv hcv => ?_⟩
  refine ⟨_, exec_mac_valid hkv hcv, ?_, macCore_invalCode_eq s⟩
  have hib : blockOf (s.kblk.toList.map fun b => b ^^^ 0x36#8) = padKey Config.ipad s.kblk := blockOf_xorPad _ _
  have hob : blockOf (s.kblk.toList.map fun b => b ^^^ 0x5C#8) = padKey Config.opad s.kblk := blockOf_xorPad _ _
  rw [hib, hob, macCore_digest, macDigest_eq, chainDigest_toList, outerTail, innerDigest_eq, innerTail]
  rfl

/-- Settles O37: on the key block of a key the four compressions are the two hashes of HMAC. -/
theorem macIsHmacSha1 : Obligations.MacIsHmacSha1 := by
  intro s key hk hkv hcv
  exact ⟨_, exec_mac_valid hkv hcv, macDigest_toList hk s.ctr⟩

/-! ## What the digest depends on -/

/-- Settles O39: the digest `MAC` writes is a function of the key block and the counter. -/
theorem digestDependsOnKeyAndCounterOnly : Obligations.DigestDependsOnKeyAndCounterOnly := by
  intro s s' t t' hk hc hkv hcv hkv' hcv' h h'
  rw [exec_mac_valid hkv hcv] at h
  rw [exec_mac_valid hkv' hcv'] at h'
  cases h
  cases h'
  rw [macCore_invalCode_eq, macCore_invalCode_eq, hk, hc]

/-- The serialised counter tells the counter (41_counter_serializer.md R131). -/
theorem be64_injective : Function.Injective be64 := by
  intro c c' h
  apply BitVec.eq_of_toNat_eq
  rw [← foldl_be64 c, ← foldl_be64 c', h]

/-- The first bytes of the inner hash's second block are the message (42_hmac_sha1.md R154). -/
theorem innerTail_getElem (m : Msg) {i : Nat} (h : i < 8) : (innerTail m)[i]'(by simp; omega) = m[i] := by
  rw [innerTail_eq, blockOf_getElem _ i (by omega)]
  simp [List.getElem?_append, h]

/-- Settles O40: the block tells its first eight bytes, the message, and the message tells the counter. -/
theorem differentCountersDifferentBlocks : Obligations.DifferentCountersDifferentBlocks := by
  intro c c' h
  have hmsg : be64 c = be64 c' := Vector.ext fun i hi => by
    rw [← innerTail_getElem (be64 c) hi, ← innerTail_getElem (be64 c') hi, h]
  exact be64_injective hmsg

end Sys2Proof.Machine
end

section
/-! TRC, the truncator (43_truncator.md R171 to R177): the code of a digest and its six decimal digits, and `GEN` as
`MAC` and then `TRUNC`. -/

namespace Sys2Proof.Machine

/-! ## The digits -/

/-- A digit byte is the ASCII code of its decimal digit (43_truncator.md R175). -/
theorem digitsOf_getElem_toNat (c : BitVec 20) {i : Nat} (h : i < 6) :
    (digitsOf c)[i].toNat = 0x30 + c.toNat / 10 ^ (5 - i) % 10 := by
  simp only [digitsOf, Vector.getElem_ofFn, BitVec.toNat_ofNat, Config.ndigits, Nat.reduceSub]
  exact Nat.mod_eq_of_lt (by omega)

/-- The digit bytes without their ASCII offset are the decimal digits of the code (43_truncator.md R175). -/
theorem digitsOf_toList_map_sub (c : BitVec 20) :
    ((digitsOf c).toList.map fun d => d.toNat - 0x30) =
      [100000, 10000, 1000, 100, 10, 1].map fun p => c.toNat / p % 10 := by
  have hdigit : ∀ p, (BitVec.ofNat 8 (0x30 + c.toNat / p % 10)).toNat - 0x30 = c.toNat / p % 10 := by
    intro p
    rw [BitVec.toNat_ofNat]
    omega
  rw [digitsOf_toList_digits, List.map_map]
  exact List.map_congr_left fun p _ => hdigit p

/-- A number below 10^6 is what its six decimal digits read, most significant first. -/
theorem foldl_six_decimal_digits {n : Nat} (h : n < 1000000) :
    ([100000, 10000, 1000, 100, 10, 1].map fun p => n / p % 10).foldl (fun m d => 10 * m + d) 0 = n := by
  simp only [List.map_cons, List.map_nil, List.foldl_cons, List.foldl_nil]
  omega

/-- Settles O42: each byte is a decimal digit of the remainder, and a remainder below 10^6 has six of them. -/
theorem digitsSpellTheCode : Obligations.DigitsSpellTheCode := by
  intro b
  refine ⟨codeOf_toNat b, fun i hi => ?_, ?_⟩
  · rw [digitsOf_getElem_toNat _ hi]
    omega
  · rw [digitsOf_toList_map_sub, foldl_six_decimal_digits (Nat.lt_succ_of_le (codeOf_le b))]

/-! ## `TRUNC` and `GEN` -/

/-- `TRUNC` in one update: every register the update does not name keeps its value (43_truncator.md R171). -/
theorem truncCore_eq (s : State) :
    truncCore s =
      { s with
        offset := truncOffset s.digest, bin := truncBin s.digest, code := codeOf (truncBin s.digest)
        digits := digitsOf (codeOf (truncBin s.digest))
        status := { s.status with ov := true } } := rfl

/-- Settles O41: `TRUNC` without its precondition is suppressed; with it the offset, the value, the remainder and the
digits are those of the digest, in one update. -/
theorem truncMakesTheCode : Obligations.TruncMakesTheCode := by
  intro s
  refine ⟨fun hdv => exec_suppressed hdv, fun hdv => ?_⟩
  exact ⟨_, exec_trunc_valid hdv, truncOffset_toNat _, truncBin_toNat _, codeOf_toNat _,
    fun _ hi => digitsOf_getElem_toNat _ hi, digitsOf_truncBin_toList _, truncCore_eq s⟩

/-- Settles O43: `MAC` sets `DV`, so `TRUNC` runs after it, and the two write what `GEN` writes. -/
theorem genIsMacThenTrunc : Obligations.GenIsMacThenTrunc := by
  intro s
  refine ⟨fun h => exec_suppressed (Bool.and_eq_false_iff.2 h), fun hkv hcv => ?_⟩
  have hdv : (macCore (invalCode s)).status.dv = true := rfl
  exact ⟨_, _, exec_mac_valid hkv hcv, exec_trunc_valid hdv, exec_gen_valid hkv hcv, rfl, truncCore_digest _,
    digitsOf_truncBin_toList _⟩

end Sys2Proof.Machine
end

section
/-! The host commands `NOP`, `CLR` and `PEEK` (44_host_commands.md R190 to R192). -/

namespace Sys2Proof.Machine

/-! ## `NOP` and `CLR` -/

/-- Format N leaves no operand bit free (30_encoding.md R82, R85). -/
theorem decodeN_reserved (i : Instr) {d : Word64} (h : d ≠ 0#64) : decodeN i d = .error .reservedBits := if_neg h

/-- Settles O18: `NOP` is the identity, and its format admits the zero operand alone. -/
theorem nopChangesNothing : Obligations.NopChangesNothing := by
  refine ⟨fun s => rfl, rfl, fun d hd => ?_⟩
  calc decode (mkWord 0x00#8 d)
      _ = decodeOperand .nop d := decode_mkWord .nop d
      _ = .error .reservedBits := decodeN_reserved .nop hd

/-- Settles O19: `CLR` is the reset of the block. -/
theorem clrGivesTheResetState : Obligations.ClrGivesTheResetState := fun _ => rfl

/-! ## `PEEK` -/

/-- `PEEK` of a byte that exists writes it to `RDATA`; no flag is read (44_host_commands.md R192). -/
theorem exec_peek {sp : PeekSpace} {i b : Byte} {s : State} (h : memRead sp i.toNat s = some b) :
    exec (.peek sp i) s = .next { s with rdata := b } := by
  simp only [exec, execPeek, h]

/-- A byte of the serialised counter as the low byte of a quotient (41_counter_serializer.md R131). -/
theorem ser64_eq_ofNat (c : Word64) (i : Nat) : ser64 c i = BitVec.ofNat 8 (c.toNat / 2 ^ (8 * (7 - i))) :=
  BitVec.eq_of_toNat_eq (by rw [ser64_toNat, BitVec.toNat_ofNat])

section
variable (s : State) {i : Nat}

/-! `MemRead` on the indices of each space (20_memory.md R61, R62). -/

theorem memRead_kblk (h : i < 64) : memRead .kblk i s = some s.kblk[i] := Vector.getElem?_eq_getElem h

theorem memRead_digest (h : i < 20) : memRead .digest i s = some s.digest[i] := Vector.getElem?_eq_getElem h

theorem memRead_digits (h : i < 6) : memRead .digits i s = some s.digits[i] := Vector.getElem?_eq_getElem h

theorem memRead_msg (h : i < 8) : memRead .msg i s = some (BitVec.ofNat 8 (s.ctr.toNat / 2 ^ (56 - 8 * i))) := by
  have hread : memRead .msg i s = some (be64 s.ctr)[i] := Vector.getElem?_eq_getElem h
  rw [hread, be64_getElem s.ctr h, ser64_eq_ofNat, show 8 * (7 - i) = 56 - 8 * i by omega]

end

/-- Settles O20: a byte of each space is what `MemRead` finds there, and an illegal word sets `ILL` alone. -/
theorem peekReadsOneByte : Obligations.PeekReadsOneByte := fun s _ =>
  ⟨fun h => exec_peek (memRead_kblk s h), fun h => exec_peek (memRead_msg s h), fun h => exec_peek (memRead_digest s h),
    fun h => exec_peek (memRead_digits s h), fun _ _ hd => execWord_illegal hd s⟩

end Sys2Proof.Machine
end

section
/-! Errors and the host's result (60_exceptions.md R201 to R216): what a suppressed command does, which error a word
raises, and how the host reads a `TOTP`. -/

namespace Sys2Proof.Machine

/-! ## Suppressed commands -/

/-- Settles O13: in each case the command's precondition is false. -/
theorem suppressedCommandsSetSqeOnly : Obligations.SuppressedCommandsSetSqeOnly := by
  intro s i h
  refine exec_suppressed ?_
  rcases h with ⟨⟨ch, rfl⟩ | rfl, hka⟩ | ⟨rfl | rfl, hkv | hcv⟩ | ⟨rfl, hdv⟩ <;> simp [precond, *]

/-! ## One error per word -/

/-- `KEND` leaves `ISF` set exactly when the ingest had failed or saw no symbol (40_base32_decoder.md R114, R115). -/
theorem kendBody_isf (s : State) : (kendBody s).status.isf = (s.status.isf || !s.kne) := by
  rcases kendBody_cases s with ⟨hisf, h⟩ | ⟨-, hkne, h⟩ | ⟨hisf, hkne, -, h⟩ | ⟨hisf, hkne, -, k, h⟩ <;> simp [*]

theorem kendBody_sqe (s : State) : (kendBody s).status.sqe = s.status.sqe := by
  rcases kendBody_cases s with ⟨-, h⟩ | ⟨-, -, h⟩ | ⟨-, -, -, h⟩ | ⟨-, -, -, k, h⟩ <;> rw [h]

section
variable {i : Instr} {s t : State}

/-- A command whose precondition holds raises no sequence error, and of these only `CLR` clears one (60_exceptions.md
R203). -/
theorem exec_admitted_sqe (hp : precond i s = true) (hclr : i ≠ .clr) (h : exec i s = .next t) :
    t.status.sqe = s.status.sqe := by
  cases i with
  | clr => exact absurd rfl hclr
  | kchar ch =>
    rcases execKchar_next h with ⟨hka, -⟩ | ⟨-, -, rfl⟩ | ⟨-, -, -, rfl⟩ | ⟨-, -, -, rfl⟩ | ⟨-, -, -, v, -, rfl⟩
    · rw [precond, hka] at hp; cases hp
    all_goals simp
  | kend => rw [exec_kend_open hp] at h; cases h; exact kendBody_sqe s
  | mac =>
    obtain ⟨hkv, hcv⟩ := Bool.and_eq_true_iff.1 hp
    rw [exec_mac_valid hkv hcv] at h; cases h; simp
  | trunc => rw [exec_trunc_valid hp] at h; cases h; simp
  | gen =>
    obtain ⟨hkv, hcv⟩ := Bool.and_eq_true_iff.1 hp
    rw [exec_gen_valid hkv hcv] at h; cases h; simp
  | peek sp k => rcases execPeek_next h with ⟨b, -, rfl⟩ | ⟨-, rfl⟩ <;> simp
  | nop => cases h; rfl
  | kinit => cases h; rfl
  | tload x => cases h; rfl
  | cload x => cases h; rfl

/-- The two data errors: an invalid character, and the end of an ingest that saw no symbol (60_exceptions.md R201). -/
theorem exec_raises_isf (hw : i.WellFormed) (h : exec i s = .next t) (h0 : s.status.isf = false)
    (h1 : t.status.isf = true) : i = .kend ∧ s.kne = false ∨ ∃ ch, i = .kchar ch ∧ charClass ch = .invalid := by
  obtain ⟨-, -, -, -, -, -, -, -, -, -, hraise, -⟩ := flagsAreWrittenByTheirCommands i s t hw h
  obtain ⟨ch, rfl⟩ | rfl := hraise h0 h1
  · rcases execKchar_next h with ⟨-, rfl⟩ | ⟨-, -, rfl⟩ | ⟨-, -, -, rfl⟩ | ⟨-, -, hinvalid, -⟩ | ⟨-, -, -, v, -, rfl⟩
    case inr.inr.inr.inl => exact .inr ⟨ch, rfl, hinvalid⟩
    all_goals simp [h0] at h1
  · rcases execKend_next h with ⟨-, rfl⟩ | ⟨-, rfl⟩
    · simp [h0] at h1
    · exact .inl ⟨rfl, by simpa [kendBody_isf, h0] using h1⟩

/-- No command that has a word raises `ILL` (60_exceptions.md R204). -/
theorem exec_keeps_ill (hw : i.WellFormed) (hclr : i ≠ .clr) (h : exec i s = .next t) :
    t.status.ill = s.status.ill := by
  obtain ⟨-, -, -, -, -, -, -, -, -, -, -, -, hill⟩ := flagsAreWrittenByTheirCommands i s t hw h
  simpa [hclr] using hill

end

/-- Settles O14: an illegal word sets `ILL`, a suppressed command `SQE`, and a command that runs raises `ISF` alone. -/
theorem atMostOneErrorPerCommand : Obligations.AtMostOneErrorPerCommand := by
  intro s t w h
  refine ⟨fun e hd => ?_, fun i hd hp => ?_, fun i hd hp => ?_⟩
  · rw [execWord_illegal hd] at h
    cases h
    exact ⟨rfl, rfl, rfl⟩
  · rw [execWord_legal hd, exec_suppressed hp] at h
    cases h
    exact ⟨rfl, rfl, rfl⟩
  · rw [execWord_legal hd] at h
    obtain ⟨-, -, hw⟩ := decode_eq_ok_iff.1 hd
    split_ifs with hclr
    · subst hclr
      cases h
      exact ⟨rfl, rfl, rfl⟩
    · exact ⟨exec_admitted_sqe hp hclr h, exec_keeps_ill hw hclr h, exec_raises_isf hw h⟩

/-! ## An invalid secret -/

/-- What every command of a list leaves as it is, the run of the list leaves as it is. -/
theorem runCommands_keeps {α : Type} {f : State → α} {is : List Instr} {s t : State}
    (hkeep : ∀ i ∈ is, ∀ u v, exec i u = .next v → f v = f u) (h : runCommands is s = .next t) : f t = f s := by
  induction is generalizing s with
  | nil => cases h; rfl
  | cons i is ih =>
    rw [runCommands] at h
    cases hi : exec i s with
    | next u =>
      rw [hi] at h
      calc f t
          _ = f u := ih (fun j hj => hkeep j (.tail i hj)) h
          _ = f s := hkeep i (.head is) s u hi
    | fault r => rw [hi] at h; cases h
    | refused r => rw [hi] at h; cases h

/-- The commands of `SECRET` write neither the counter nor `RDATA` (10_state.md R52). -/
theorem exec_secretProgram_frame {secret : List Byte} {i : Instr} (hi : i ∈ secretProgram secret) {s t : State}
    (h : exec i s = .next t) : t.ctr = s.ctr ∧ t.rdata = s.rdata := by
  obtain ⟨-, -, -, hctr, -, -, hrdata, -⟩ := writeMatrix i s t h
  simp only [secretProgram, List.mem_cons, List.mem_append, List.mem_map, List.not_mem_nil, or_false] at hi
  rcases hi with rfl | ⟨ch, -, rfl⟩ | rfl <;>
    exact ⟨not_not.1 fun hne => by simpa using hctr hne, not_not.1 fun hne => by simpa using hrdata hne⟩

/-- Settles O30: the ingest fails at its first invalid character, or at `KEND` without a symbol, and no command of it
writes the counter or `RDATA`. -/
theorem invalidSecretMakesNoKey : Obligations.InvalidSecretMakesNoKey := by
  intro s secret hdec hlim
  obtain ⟨t, hrun, hstatus⟩ := secretProgram_invalid s hdec hlim
  exact ⟨t, hrun, runCommands_keeps (fun i hi _ _ h => (exec_secretProgram_frame hi h).1) hrun,
    runCommands_keeps (fun i hi _ _ h => (exec_secretProgram_frame hi h).2) hrun, hstatus⟩

/-! ## The host's reading -/

/-- The host reads a code exactly where `STATUS` is 0x0F (60_exceptions.md R216). -/
theorem hostReading_ok {s : State} (h : portStatus s = 0x0F#8) : hostReading s = .ok (portCodeAscii s) := if_pos h

/-- With `STATUS` other than 0x0F and `ISF` set the host reads the document's error (60_exceptions.md R202, R216). -/
theorem hostReading_invalid {s : State} (h : portStatus s ≠ 0x0F#8) (hisf : s.status.isf = true) :
    hostReading s = .invalidSecretFormat := by
  rw [hostReading, if_neg h, if_pos hisf]

/-- Settles O51: `TOTP` leaves every flag but `SQE` and `ILL` fixed by the secret's decode, so `STATUS` is 0x0F or
0x62. -/
theorem hostReadsTheResult : Obligations.HostReadsTheResult := by
  intro s secret x hsqe hill hlim
  cases hdec : b32Decode secret with
  | some key =>
    obtain ⟨t, hrun, hcode, hstatus⟩ := totpProgram_valid s x hdec hlim
    refine ⟨t, hrun, ?_⟩
    rw [hcode]
    exact ⟨hostReading_ok (by simp [portStatus, hstatus, hsqe, hill, statusWord]), rfl⟩
  | none =>
    obtain ⟨t, hrun, -, hstatus⟩ := totpProgram_invalid s x hdec hlim
    have hport : portStatus t = 0x62#8 := by simp [portStatus, hstatus, hill, statusWord]
    refine ⟨t, hrun, ?_⟩
    rw [generateCode_eq_none_of_decode hdec]
    exact ⟨hostReading_invalid (by rw [hport]; decide) (by rw [hstatus]), hport⟩

end Sys2Proof.Machine
end

section
/-! Reset and hazards (70_reset_and_hazards.md R220, R225, R226): the reset as a move of the host, no stale result after
a change of the key or the counter, and a loaded key used again. -/

namespace Sys2Proof.Machine

/-! ## Reset and idle steps -/

/-- Settles O8: a reset move is the reset of the block after the move has left the list; an idle step is the identity. -/
theorem resetMovesAndIdleSteps : Obligations.ResetMovesAndIdleSteps := by
  refine ⟨fun s rest hp => ?_, fun s => step_idle⟩
  rw [step_reset hp, resetBlock, takeMove_pending, takeMove_cp, hp, List.tail_cons]

/-! ## No stale result -/

section
variable {i : Instr} {s t : State}

/-- Only a command whose precondition holds changes the key or the counter (60_exceptions.md R203). -/
theorem precond_of_key_or_counter_changed (h : exec i s = .next t) (hne : t.kblk ≠ s.kblk ∨ t.ctr ≠ s.ctr) :
    precond i s = true := by
  by_contra hp
  rw [exec_suppressed (Bool.eq_false_of_not_eq_true hp)] at h
  cases h
  simp at hne

/-- The commands that can change the key or the counter (10_state.md R52). -/
theorem command_of_key_or_counter_changed (h : exec i s = .next t) (hne : t.kblk ≠ s.kblk ∨ t.ctr ≠ s.ctr) :
    (i = .clr ∨ i = .kinit ∨ ∃ x, i = .tload x ∨ i = .cload x) ∨ ((∃ ch, i = .kchar ch) ∨ i = .kend) := by
  obtain ⟨hkey, -, -, hctr, -⟩ := writeMatrix i s t h
  rcases hne with hk | hc
  · rcases hkey (.inr (.inr (.inr (.inr hk)))) with rfl | rfl | hkchar | rfl <;> simp [*]
  · rcases hctr hc with rfl | hload <;> simp [*]

/-- `CLR`, `KINIT`, `TLOAD` and `CLOAD` leave neither a digest nor a code (10_state.md R43). -/
theorem exec_invalidation_noDigest (hi : i = .clr ∨ i = .kinit ∨ ∃ x, i = .tload x ∨ i = .cload x)
    (h : exec i s = .next t) : t.NoDigest := by
  rcases hi with rfl | rfl | ⟨x, rfl | rfl⟩ <;> cases h <;> exact ⟨rfl, rfl, rfl, rfl, rfl, rfl, rfl⟩

/-- The characters and the end of an ingest leave the counter and the results as they were (10_state.md R52). -/
theorem exec_ingest_sameResults (hi : (∃ ch, i = .kchar ch) ∨ i = .kend) (h : exec i s = .next t) :
    SameResults s t := by
  rcases hi with ⟨ch, rfl⟩ | rfl
  · rcases execKchar_next h with ⟨-, rfl⟩ | ⟨-, -, rfl⟩ | ⟨-, -, -, rfl⟩ | ⟨-, -, -, rfl⟩ | ⟨-, -, -, v, -, rfl⟩
    case inr.inr.inr.inr => rw [shiftIn_sameButDecoder v s]; rfl
    all_goals rfl
  · rcases execKend_next h with ⟨-, rfl⟩ | ⟨-, rfl⟩
    · rfl
    · exact kendBody_sameResults s

/-- The ingest is open where one of its commands runs. -/
theorem ka_of_ingest_precond (hi : (∃ ch, i = .kchar ch) ∨ i = .kend) (hp : precond i s = true) :
    s.status.ka = true := by
  rcases hi with ⟨ch, rfl⟩ | rfl <;> exact hp

/-- After a change of the key or the counter there is neither a digest nor a code: `CLR`, `KINIT` and the loads
invalidate both, and an open ingest had neither (70_reset_and_hazards.md R225). -/
theorem exec_noDigest_of_key_or_counter_changed (hs : s.FlagInv) (h : exec i s = .next t)
    (hne : t.kblk ≠ s.kblk ∨ t.ctr ≠ s.ctr) : t.NoDigest := by
  rcases command_of_key_or_counter_changed h hne with hinval | hingest
  · exact exec_invalidation_noDigest hinval h
  · have hka := ka_of_ingest_precond hingest (precond_of_key_or_counter_changed h hne)
    obtain ⟨-, hnone⟩ := hs.of_ka hka
    exact hnone.of_sameResults (exec_ingest_sameResults hingest h)

end

/-- Settles O49: the digest and the code are invalidated with the key and the counter. -/
theorem noStaleResult : Obligations.NoStaleResult := by
  intro i s t hs h hne
  obtain ⟨hdv, hdigest, hcode⟩ := exec_noDigest_of_key_or_counter_changed hs h hne
  exact ⟨hdv, hcode.ov, hdigest, hcode.digits⟩

/-! ## A loaded key for a new time -/

/-- Settles O52: `TLOAD t; GEN` computes from the key block, and writes neither it nor `KV`. -/
theorem keyIsReusedForANewTime : Obligations.KeyIsReusedForANewTime := by
  intro s key x hkv hk
  obtain ⟨t, hrun, hdigits, hkblk, hstatus⟩ := runCommands_tload_gen_valid hkv hk x
  exact ⟨t, hrun, hdigits, hkblk, by rw [hstatus]; exact hkv, by rw [hstatus]⟩

end Sys2Proof.Machine
end
